-- ==== Sys2Proof/Word.lean ====
section
/-! DEFINITION. The word types of the tgbedit tile block: command word, response word, operand
field, byte and pixel cell (spec 00_scope.md R3 and R4, 30_encoding.md R54 and R57). -/

namespace Sys2Proof

/-- A command word on the port `cmd_word`: `CMDW` = 96 bits (R4, R54). -/
abbrev CmdWord := BitVec 96

/-- A response word on the port `rsp_word`: `RSPW` = 24 bits (R4, R57). -/
abbrev RspWord := BitVec 24

/-- One operand field of a command word: `OPW` = 16 bits (R4, R54). -/
abbrev Field := BitVec 16

/-- One byte of `BUF` (R16). -/
abbrev Byte := BitVec 8

/-- One stored cell: `CELLW` = 2 bits, unsigned, so its value is in [0,3] by its type (R4, R12). -/
abbrev Pixel := BitVec 2

/-- One tile: 8 columns of 8 rows, indexed `x` first and then `y` (R10, 00_scope.md section 7.2).
Its shape cannot change (R11). -/
abbrev Grid := Vector (Vector Pixel 8) 8

end Sys2Proof
end

