-- ==== Sys2Proof/Syntax.lean ====
section
/-! DEFINITION. The fourteen commands of TGBCMD-1 (spec 30_encoding.md R55, R56), one constructor
per row of spec/opcode_table.json. -/

namespace Sys2Proof

/-- The fourteen opcodes (R56), without operands. -/
inductive Opcode where
  | get | set | clamp | enc | dec | line | select | rdcur | ser | deser | bwr | brd | setlen | rdlen
  deriving DecidableEq, Repr

/-- A command with its operands. An operand is the integer `sext_16(field)` (R55), named as in the
operand table under R55. -/
inductive Instr where
  /-- GET x, y (R70). -/
  | get (x y : Int)
  /-- SET x, y, v (R72). -/
  | set (x y v : Int)
  /-- CLAMP (R74). -/
  | clamp
  /-- ENC (R80). -/
  | enc
  /-- DEC (R82). -/
  | dec
  /-- LINE x1, y1, x2, y2, v (R90). -/
  | line (x1 y1 x2 y2 v : Int)
  /-- SELECT t (R100). -/
  | select (t : Int)
  /-- RDCUR (R101). -/
  | rdcur
  /-- SER (R102). -/
  | ser
  /-- DESER (R104). -/
  | deser
  /-- BWR a, b (R110). -/
  | bwr (a b : Int)
  /-- BRD a (R111). -/
  | brd (a : Int)
  /-- SETLEN n (R112). -/
  | setlen (n : Int)
  /-- RDLEN (R113). -/
  | rdlen
  deriving DecidableEq, Repr

/-- The opcode of a command (R56). -/
def Instr.opcode : Instr → Opcode
  | .get _ _ => .get
  | .set _ _ _ => .set
  | .clamp => .clamp
  | .enc => .enc
  | .dec => .dec
  | .line _ _ _ _ _ => .line
  | .select _ => .select
  | .rdcur => .rdcur
  | .ser => .ser
  | .deser => .deser
  | .bwr _ _ => .bwr
  | .brd _ => .brd
  | .setlen _ => .setlen
  | .rdlen => .rdlen

/-- The operands of a command in assembler order, which is field order A, B, C, D, E (R55). -/
def Instr.operands : Instr → List Int
  | .get x y => [x, y]
  | .set x y v => [x, y, v]
  | .clamp => []
  | .enc => []
  | .dec => []
  | .line x1 y1 x2 y2 v => [x1, y1, x2, y2, v]
  | .select t => [t]
  | .rdcur => []
  | .ser => []
  | .deser => []
  | .bwr a b => [a, b]
  | .brd a => [a]
  | .setlen n => [n]
  | .rdlen => []

end Sys2Proof
end

