-- ==== Sys2Proof/WellFormed.lean ====
section
/-! DEFINITION. Well-formed commands: every operand fits a signed 16-bit field
(spec 30_encoding.md R55, R63: "An operand outside [-32768, 32767] cannot be assembled"). -/

namespace Sys2Proof

/-- An integer that a 16-bit operand field can carry (R55, D4). -/
def fitsField (n : Int) : Bool := decide (-32768 ≤ n) && decide (n ≤ 32767)

/-- Every operand of the command fits its field. Values outside the command's own domain (a
coordinate of 8, a tile of -1) are well formed: the command refuses them when it runs (R55). -/
def Instr.wf (i : Instr) : Bool := i.operands.all fitsField

end Sys2Proof
end

