-- ==== Sys2Proof/Decode.lean ====
section
/-! DEFINITION. The decoder, total on all 2^96 words and rejecting by name (spec 30_encoding.md
R54, R56, R59 to R62, R66), then the encoder, and the match and mask table of R56. -/

namespace Sys2Proof

/-! ### Fields of the command word (R54) -/

/-- Bits [7:0] (R54). -/
def opcodeOf (w : CmdWord) : BitVec 8 := w.extractLsb' 0 8

/-- Bits [15:8], which must be zero (R54, R60). -/
def rsvOf (w : CmdWord) : BitVec 8 := w.extractLsb' 8 8

/-- Bits [31:16], the first operand (R54). -/
def fieldA (w : CmdWord) : Field := w.extractLsb' 16 16

/-- Bits [47:32], the second operand (R54). -/
def fieldB (w : CmdWord) : Field := w.extractLsb' 32 16

/-- Bits [63:48], the third operand (R54). -/
def fieldC (w : CmdWord) : Field := w.extractLsb' 48 16

/-- Bits [79:64], the fourth operand (R54). -/
def fieldD (w : CmdWord) : Field := w.extractLsb' 64 16

/-- Bits [95:80], the fifth operand (R54). -/
def fieldE (w : CmdWord) : Field := w.extractLsb' 80 16

/-! ### The opcode map (R56) and the operand table (R55) -/

/-- The fourteen opcodes in the order of R56. -/
def allOpcodes : List Opcode :=
  [.get, .set, .clamp, .enc, .dec, .line, .select, .rdcur, .ser, .deser, .bwr, .brd, .setlen, .rdlen]

/-- The opcode numbers (R56). -/
def opcodeNumber : Opcode → BitVec 8
  | .get => 0x10
  | .set => 0x11
  | .clamp => 0x12
  | .enc => 0x20
  | .dec => 0x21
  | .line => 0x30
  | .select => 0x40
  | .rdcur => 0x41
  | .ser => 0x42
  | .deser => 0x43
  | .bwr => 0x50
  | .brd => 0x51
  | .setlen => 0x52
  | .rdlen => 0x53

/-- How many of the fields A to E a command uses, always the first ones (operand table, R55). -/
def operandsUsed : Opcode → Nat
  | .get => 2
  | .set => 3
  | .clamp => 0
  | .enc => 0
  | .dec => 0
  | .line => 5
  | .select => 1
  | .rdcur => 0
  | .ser => 0
  | .deser => 0
  | .bwr => 2
  | .brd => 1
  | .setlen => 1
  | .rdlen => 0

/-- Look an opcode number up in R56: `none` for the 242 unassigned values (R59). -/
def lookupOpcode (c : BitVec 8) : Option Opcode := allOpcodes.find? fun o => opcodeNumber o == c

/-- The operand fields a command with `used` operands does not use, all at the top of the word, are
zero (R61). -/
def unusedZero (used : Nat) (w : CmdWord) : Bool := w >>> (16 + 16 * used) == 0

/-! ### The decoder (R66) -/

/-- Why a word is not a command. All three give the response IllegalCommand (R59, R60, R61, R125),
so which one is named first cannot be observed (R66, log entry 14). -/
inductive DecodeError where
  /-- The byte `rsv` is not zero (R60). -/
  | reservedByte
  /-- The opcode is not one of the fourteen (R59). -/
  | unknownOpcode
  /-- An operand field the command does not use is not zero (R61). -/
  | unusedField
  deriving DecidableEq, Repr

/-- The command with this opcode, its operands the signed values of fields A to E (R55, R66 step 4). -/
def commandOf (o : Opcode) (w : CmdWord) : Instr :=
  match o with
  | .get => .get (fieldA w).toInt (fieldB w).toInt
  | .set => .set (fieldA w).toInt (fieldB w).toInt (fieldC w).toInt
  | .clamp => .clamp
  | .enc => .enc
  | .dec => .dec
  | .line =>
    .line (fieldA w).toInt (fieldB w).toInt (fieldC w).toInt (fieldD w).toInt (fieldE w).toInt
  | .select => .select (fieldA w).toInt
  | .rdcur => .rdcur
  | .ser => .ser
  | .deser => .deser
  | .bwr => .bwr (fieldA w).toInt (fieldB w).toInt
  | .brd => .brd (fieldA w).toInt
  | .setlen => .setlen (fieldA w).toInt
  | .rdlen => .rdlen

/-- The decoder: the procedure of R66. -/
def decode (w : CmdWord) : Except DecodeError Instr :=
  if rsvOf w ≠ 0 then .error .reservedByte
  else
    match lookupOpcode (opcodeOf w) with
    | none => .error .unknownOpcode
    | some o =>
      if unusedZero (operandsUsed o) w then .ok (commandOf o w) else .error .unusedField

/-! ### The encoder -/

/-- The word `EEEE DDDD CCCC BBBB AAAA rr oo` with `rr` zero (R54). -/
def packWord (op : BitVec 8) (a b c d e : Field) : CmdWord :=
  e ++ d ++ c ++ b ++ a ++ (0 : BitVec 8) ++ op

/-- The 16-bit two's complement field of an operand (R55). -/
def operandField (n : Int) : Field := BitVec.ofInt 16 n

/-- The command word of a command (R54, R55, R56); unused fields are zero (R61). -/
def encode : Instr → CmdWord
  | .get x y => packWord 0x10 (operandField x) (operandField y) 0 0 0
  | .set x y v => packWord 0x11 (operandField x) (operandField y) (operandField v) 0 0
  | .clamp => packWord 0x12 0 0 0 0 0
  | .enc => packWord 0x20 0 0 0 0 0
  | .dec => packWord 0x21 0 0 0 0 0
  | .line x1 y1 x2 y2 v =>
    packWord 0x30 (operandField x1) (operandField y1) (operandField x2) (operandField y2)
      (operandField v)
  | .select t => packWord 0x40 (operandField t) 0 0 0 0
  | .rdcur => packWord 0x41 0 0 0 0 0
  | .ser => packWord 0x42 0 0 0 0 0
  | .deser => packWord 0x43 0 0 0 0 0
  | .bwr a b => packWord 0x50 (operandField a) (operandField b) 0 0 0
  | .brd a => packWord 0x51 (operandField a) 0 0 0 0
  | .setlen n => packWord 0x52 (operandField n) 0 0 0 0
  | .rdlen => packWord 0x53 0 0 0 0 0

/-! ### The match and mask table (R56) -/

/-- The match word of a command, as the table of R56 prints it. -/
def matchOf : Opcode → CmdWord
  | .get => 0x000000000000000000000010
  | .set => 0x000000000000000000000011
  | .clamp => 0x000000000000000000000012
  | .enc => 0x000000000000000000000020
  | .dec => 0x000000000000000000000021
  | .line => 0x000000000000000000000030
  | .select => 0x000000000000000000000040
  | .rdcur => 0x000000000000000000000041
  | .ser => 0x000000000000000000000042
  | .deser => 0x000000000000000000000043
  | .bwr => 0x000000000000000000000050
  | .brd => 0x000000000000000000000051
  | .setlen => 0x000000000000000000000052
  | .rdlen => 0x000000000000000000000053

/-- The mask word of a command, as the table of R56 prints it. -/
def maskOf : Opcode → CmdWord
  | .get => 0xFFFFFFFFFFFF00000000FFFF
  | .set => 0xFFFFFFFF000000000000FFFF
  | .clamp => 0xFFFFFFFFFFFFFFFFFFFFFFFF
  | .enc => 0xFFFFFFFFFFFFFFFFFFFFFFFF
  | .dec => 0xFFFFFFFFFFFFFFFFFFFFFFFF
  | .line => 0x00000000000000000000FFFF
  | .select => 0xFFFFFFFFFFFFFFFF0000FFFF
  | .rdcur => 0xFFFFFFFFFFFFFFFFFFFFFFFF
  | .ser => 0xFFFFFFFFFFFFFFFFFFFFFFFF
  | .deser => 0xFFFFFFFFFFFFFFFFFFFFFFFF
  | .bwr => 0xFFFFFFFFFFFF00000000FFFF
  | .brd => 0xFFFFFFFFFFFFFFFF0000FFFF
  | .setlen => 0xFFFFFFFFFFFFFFFF0000FFFF
  | .rdlen => 0xFFFFFFFFFFFFFFFFFFFFFFFF

/-- A word is this command by match and mask (R56). -/
def matchesRow (o : Opcode) (w : CmdWord) : Bool := w &&& maskOf o == matchOf o

/-! ### Words given as numbers -/

/-- What the decoder reads from an instruction of `nbits` bits whose value is `w`, bit 0 the least
significant (R54); bits above `nbits` are 0. A command word is 96 bits in parallel (R53, 91 N7), so a
number with a bit above bit 95 is no command word (log entry 10). -/
def decodeTableWord (nbits w : Nat) : Option Instr :=
  if w % 2 ^ nbits < 2 ^ 96 then (decode (BitVec.ofNat 96 (w % 2 ^ nbits))).toOption else none

end Sys2Proof
end

