-- ==== Sys2Proof/Config.lean ====
section
/-! DEFINITION. The parameters the spec fixes (00_scope.md R3, R4) and the one free value of the
model, the delays the spec leaves unspecified (30_encoding.md R51, 70_reset_and_hazards.md R143,
R151). -/

namespace Sys2Proof

/-- `TILE_BYTES`: bytes of one encoded tile (R3). -/
abbrev Config.tileBytes : Nat := 16

/-- `STORE_BYTES`: bytes of the encoded store, 256 tiles of 16 bytes (R3). -/
abbrev Config.storeBytes : Nat := 4096

/-- `BUF_CAP`: bytes of `BUF`, at addresses 0 to 8191 (R4). -/
abbrev Config.bufCap : Nat := 8192

/-- FREE VALUE (log entry 2): the n-th delay, in clock edges. R51 gives no number of cycles between
the acceptance of a command and `rsp_valid`, nor between a delivery and `cmd_ready`, and R143 none
for the clearing after a reset. R151 calls the first and the last finite, and not the second: that
`cmd_ready` rises after finitely many edges after a delivery is a DESIGN CHOICE (log entry 21, unsafe).
The constant has no body, so nothing can be proved of its values. DESIGN CHOICE (log entry 19, unsafe): the n-th delay depends on n alone, not on the
command, the state or the pins, so two runs that have drawn equally many delays take equally many edges. -/
opaque Config.delay : Nat → Nat

end Sys2Proof
end

