-- ==== Sys2Proof/Machine/State.lean ====
section
/-! DEFINITION. The state of the tgbedit tile block as plain data (spec 10_state.md R10 to R24,
30_encoding.md R50 to R52), its state after reset (R23, R140), and the ways a step can stop. -/

namespace Sys2Proof.Machine

open Sys2Proof

/-- The byte space `BUF` (R16, R30): pairs of address and byte, addresses strictly rising and below
8192, no entry equal to what an unlisted address reads as. The form is `Memory.wf` in Ops.lean. -/
abbrev Memory := List Host.Cell

/-- The tile store `TS` (R10): 256 grids, indexed by tile. -/
abbrev Store := Vector Grid 256

/-- The input pins as sampled at one rising edge of `clk` (R50). -/
structure PortIn where
  /-- `rst`: synchronous reset, active high (R140). -/
  rst : Bool
  /-- `cmd_valid`: the host offers a command word. -/
  cmdValid : Bool
  /-- `cmd_word`: the command word (R54). -/
  cmdWord : CmdWord
  /-- `rsp_ready`: the host can accept a response word. -/
  rspReady : Bool
  deriving DecidableEq, Repr

/-- The four pieces of architectural state, the `State` of R52's signature of `step`. -/
structure Arch where
  /-- `TS` (R10). -/
  ts : Store
  /-- `CUR` (R15). -/
  cur : BitVec 8
  /-- `BLEN` (R17). -/
  blen : BitVec 14
  /-- `BUF` (R16). -/
  buf : Memory
  deriving DecidableEq, Repr

/-- The block, its ports, and the host's part of the ports (the pin samples still to come and the
responses already taken). -/
structure State where
  /-- `TS`, the tile store: `TS[t][x][y]` is `ts[t][x][y]` (R10 to R14). -/
  ts : Store
  /-- `CUR`, the current tile register (R15). -/
  cur : BitVec 8
  /-- `BLEN`, the buffer length register, legal values 0 to 8192 (R17). -/
  blen : BitVec 14
  /-- `BUF`, the byte buffer (R16). -/
  buf : Memory
  /-- The response word of the command in flight; `none` when no command is in flight. The block is
  busy exactly when this is `some` (R22, R51). -/
  rsp : Option RspWord
  /-- MODEL's own: edges still to pass before `rsp_valid` rises (command in flight) or `cmd_ready`
  rises (none in flight). Every value it takes is a free value (R51, R143, log entry 2). -/
  wait : Nat
  /-- MODEL's own: how many free delays have been drawn (log entry 2). -/
  draws : Nat
  /-- MODEL's own: the input pins at the coming rising edges, the next one first (R50, R149, log
  entry 1). -/
  inputs : List PortIn
  /-- MODEL's own: the responses delivered to the host so far, oldest first (R52, R152, log
  entry 8). -/
  delivered : List RspWord
  deriving DecidableEq, Repr

/-- The architectural part of a state (R52). -/
def State.arch (s : State) : Arch := { ts := s.ts, cur := s.cur, blen := s.blen, buf := s.buf }

/-- The block after reset (R23, R140): every cell 0, `CUR` 0, `BLEN` 0, every byte of `BUF` 0x00 (no
byte listed), no command in flight. The clearing that R143 allows is over (log entry 5). -/
def State.reset : State where
  ts := Vector.replicate 256 (Vector.replicate 8 (Vector.replicate 8 0))
  cur := 0
  blen := 0
  buf := []
  rsp := none
  wait := 0
  draws := 0
  inputs := []
  delivered := []

/-- Why the machine could stop. There is no constructor: no error stops the block, every word has a
defined response (R52, R62, R127, R128), so a fault is impossible by its type (log entry 11). Safe:
nothing is stopped that the hardware runs. -/
inductive Fault where
  deriving DecidableEq, Repr

/-- Why an instruction could be without meaning in the model. -/
inductive Refusal where
  /-- Raised by an arm of `exec` for an instruction that has no meaning yet. No arm raises it: all
  fourteen commands have their meaning. Safe. -/
  | notModelled (mnemonic : String)
  deriving DecidableEq, Repr

/-- What a step answers. -/
abbrev Outcome := Host.Outcome State Fault Refusal

end Sys2Proof.Machine
end

