-- ==== Sys2Proof/Machine/Flags.lean ====
section
/-! DEFINITION. The block has no flags, condition codes or sticky error bits (spec 10_state.md R20):
a command's outcome is the status field of its response word and nothing else. This file holds that
status and the packing of the response word (60_exceptions.md R120, 30_encoding.md R57). -/

namespace Sys2Proof.Machine

open Sys2Proof

/-- Success and the five error kinds (R120). -/
inductive Status where
  | ok
  /-- Never raised: operands are integers and buffer elements bytes by construction (R122). -/
  | typeArgument
  | outOfRange
  | formatError
  | validationError
  | illegalCommand
  deriving DecidableEq, Repr

/-- The status numbers (R120). -/
def statusCode : Status → BitVec 8
  | .ok => 0
  | .typeArgument => 1
  | .outOfRange => 2
  | .formatError => 3
  | .validationError => 4
  | .illegalCommand => 5

/-- `zext_16(v)` (00_scope.md section 7.1), defined for values below 65536; every value a rule
returns is at most 8192 (R57). -/
def zext16 (d : Nat) : BitVec 16 := BitVec.ofNat 16 d

/-- The response word: status in bits [7:0], data in bits [23:8] (R57). -/
def responseWord (st : Status) (d : Nat) : RspWord := zext16 d ++ statusCode st

/-- Bits [7:0] of a response word (R57). -/
def rspStatus (r : RspWord) : BitVec 8 := r.extractLsb' 0 8

/-- Bits [23:8] of a response word (R57). -/
def rspData (r : RspWord) : BitVec 16 := r.extractLsb' 8 16

end Sys2Proof.Machine
end

