-- ==== Sys2Proof/Machine/Operands.lean ====
section
/-! DEFINITION. The operand domains and the reading of a checked operand as an index or a value
(spec 00_scope.md R5, R6; 60_exceptions.md R121). Every operand is an integer (R55); every check is
made on that integer before it is narrowed, so nothing is truncated or wrapped (R40, R110). -/

namespace Sys2Proof.Machine

open Sys2Proof

/-- `clamp2(v)`: 3 above 3, 0 below 0, else `v` (R5). -/
def clamp2 (v : Int) : Int := if v > 3 then 3 else if v < 0 then 0 else v

/-- `in_coord(c)`: 0 <= c <= 7 (R6). -/
def inCoord (c : Int) : Bool := decide (0 ≤ c) && decide (c ≤ 7)

/-- `in_pixel(v)`: 0 <= v <= 3 (R6). -/
def inPixel (v : Int) : Bool := decide (0 ≤ v) && decide (v ≤ 3)

/-- `in_tile(t)`: 0 <= t <= 255 (R6). -/
def inTile (t : Int) : Bool := decide (0 ≤ t) && decide (t ≤ 255)

/-- A buffer address: 0 <= a <= 8191 (R30, R40). -/
def inAddr (a : Int) : Bool := decide (0 ≤ a) && decide (a < Config.bufCap)

/-- A byte value: 0 <= b <= 255 (R110). -/
def inByte (b : Int) : Bool := decide (0 ≤ b) && decide (b ≤ 255)

/-- A buffer length: 0 <= n <= 8192, one more value than there are addresses (R17, R112). -/
def inLen (n : Int) : Bool := decide (0 ≤ n) && decide (n ≤ Config.bufCap)

/-- A checked coordinate as an index; used only where `inCoord` holds (log entry 13). -/
def coord (c : Int) : Fin 8 := Fin.ofNat 8 c.toNat

/-- A checked pixel value as a cell; used only where `inPixel` holds. -/
def pixelOf (v : Int) : Pixel := BitVec.ofInt 2 v

/-- A checked tile index as a value of `CUR`; used only where `inTile` holds. -/
def tileOf (t : Int) : BitVec 8 := BitVec.ofInt 8 t

/-- A checked buffer address; used only where `inAddr` holds. -/
def addrOf (a : Int) : Nat := a.toNat

/-- A checked byte value; used only where `inByte` holds. -/
def byteOf (b : Int) : Byte := BitVec.ofInt 8 b

/-- A checked length as a value of `BLEN`; used only where `inLen` holds. -/
def lenOf (n : Int) : BitVec 14 := BitVec.ofInt 14 n

/-- Exactly one of `x1 == x2` and `y1 == y2` holds (R91). -/
def axisAligned (x1 y1 x2 y2 : Int) : Bool := (x1 == x2) ^^ (y1 == y2)

end Sys2Proof.Machine
end

