-- ==== Sys2Proof/Machine/Ops.lean ====
section
/-! DEFINITION. The shared operations: reads and writes of the byte space and the pixel space, the
codec functions of one tile, the registers, ending a command with a response, and raising an error
(spec 00_scope.md sections 7.2 to 7.4, 20_memory.md, 60_exceptions.md R127). -/

namespace Sys2Proof.Machine

open Sys2Proof

/-! ### Vectors -/

/-- The vector with entry `f i` at every index `i`, through a list, so that the kernel evaluates it
in one pass. -/
def tabulate {α : Type} {n : Nat} (f : Fin n → α) : Vector α n := ⟨(List.ofFn f).toArray, by simp⟩

/-- `f` at every entry, through a list. -/
def mapEntries {α β : Type} {n : Nat} (f : α → β) (v : Vector α n) : Vector β n :=
  ⟨(v.toList.map f).toArray, by simp⟩

/-! ### The byte space (R30, R37, R38) -/

/-- What an address with no entry reads as: 0x00, the value of every byte of `BUF` after reset (R23,
log entry 6). -/
def unlistedByte : Byte := 0x00

/-- Entries in strictly rising address order from `lo` on, below 8192, none equal to
`unlistedByte`. -/
def Memory.wfFrom (lo : Nat) : Memory → Bool
  | [] => true
  | (k, b) :: m =>
    decide (lo ≤ k) && decide (k < Config.bufCap) && (b != unlistedByte) && Memory.wfFrom (k + 1) m

/-- The canonical form of the byte space. -/
def Memory.wf (m : Memory) : Bool := m.wfFrom 0

/-- `MemRead(a, 1)` (00_scope.md section 7.2). -/
def Memory.read : Memory → Nat → Byte
  | [], _ => unlistedByte
  | (k, b) :: m, a => if k = a then b else Memory.read m a

/-- `MemWrite(a, 1, v)` (00_scope.md section 7.2), keeping the canonical form. -/
def Memory.write : Memory → Nat → Byte → Memory
  | [], a, v => if v = unlistedByte then [] else [(a, v)]
  | (k, b) :: m, a, v =>
    if a < k then
      if v = unlistedByte then (k, b) :: m else (a, v) :: (k, b) :: m
    else if a = k then
      if v = unlistedByte then m else (a, v) :: m
    else (k, b) :: Memory.write m a v

/-- `MemWrite` of a byte sequence at `base`, `base + 1`, .... The writes are to different addresses
and a command is atomic, so their order cannot be observed (R38, log entry 12). -/
def Memory.writeList (m : Memory) (base : Nat) : List Byte → Memory
  | [] => m
  | b :: bs => Memory.write (Memory.writeList m (base + 1) bs) base b

/-- The sixteen bytes `BUF[base .. base + 15]`, lowest address first. -/
def Memory.readTile (m : Memory) (base : Nat) : Vector Byte 16 :=
  tabulate fun i => m.read (base + i.val)

/-! ### The pixel space (R10, R30, R38) -/

/-- The cell of column `x` and row `y`. -/
def cellAt (g : Grid) (x y : Fin 8) : Pixel := g[x][y]

/-- The grid with one cell replaced. -/
def withCell (g : Grid) (x y : Fin 8) (v : Pixel) : Grid := g.set x (g[x].set y v)

/-- `TS[t]`: every 8-bit value names a tile (R15). -/
def tileAt (ts : Store) (t : BitVec 8) : Grid := ts[t.toNat]'t.isLt

/-- The store with one tile replaced. -/
def withTile (ts : Store) (t : BitVec 8) (g : Grid) : Store := ts.set t.toNat g t.isLt

/-- `clamp2` of one cell (R74); the identity, since a cell cannot leave [0,3] (R12). -/
def clampCell (p : Pixel) : Pixel := BitVec.ofInt 2 (clamp2 p.toNat)

/-- The clamp pass over the 64 cells of a grid (R74, R75). -/
def clampGrid (g : Grid) : Grid := mapEntries (fun column => mapEntries clampCell column) g

/-- The clamp pass over all 256 tiles (R75, R102). -/
def clampStore (ts : Store) : Store := mapEntries clampGrid ts

/-! ### The codec of one tile (R7, R8, R32 to R34) -/

/-- Bit `p` of every pixel of row `y` packed into a byte, column `x` at bit `7 - x` (R7, R33): the
low bitplane byte for `p` = 0, the high one for `p` = 1. -/
def planeByte (g : Grid) (p : Nat) (y : Fin 8) : Byte :=
  BitVec.ofNat 8
    ((List.finRange 8).map fun x => (((cellAt g x y).toNat >>> p) &&& 1) <<< (7 - x.val)).sum

/-- `encode_tile(g)`: byte `2*y` is the low plane of row `y`, byte `2*y + 1` its high plane (R7). -/
def encodeTile (g : Grid) : Vector Byte 16 :=
  tabulate fun i => planeByte g (i.val % 2) (Fin.ofNat 8 (i.val / 2))

/-- `low_bit | (high_bit << 1)` of column `x` of a row with these two plane bytes (R8). -/
def decodeCell (lo hi : Byte) (x : Fin 8) : Pixel :=
  (((lo >>> (7 - x.val)) &&& 1) ||| (((hi >>> (7 - x.val)) &&& 1) <<< 1)).setWidth 2

/-- `decode_tile(b)` (R8). -/
def decodeTile (b : Vector Byte 16) : Grid :=
  tabulate fun x => tabulate fun y =>
    decodeCell (b[2 * y.val]'(by omega)) (b[2 * y.val + 1]'(by omega)) x

/-- The store image: the encodings of the 256 tiles in index order (R36, R102). -/
def storeImage (ts : Store) : List Byte := ts.toList.flatMap fun g => (encodeTile g).toList

/-- The store whose tile `t` is decoded from the sixteen bytes at `16*t` (R36, R104). -/
def decodeStore (m : Memory) : Store :=
  tabulate fun t => decodeTile (m.readTile (Config.tileBytes * t.val))

/-! ### The registers and the current tile -/

/-- `TS[CUR]`. -/
def State.grid (s : State) : Grid := tileAt s.ts s.cur

/-- `TS[CUR] <- g`: all 64 cells replaced at once. -/
def State.setGrid (g : Grid) (s : State) : State := { s with ts := withTile s.ts s.cur g }

/-- Replace all of `TS` at once. -/
def State.setStore (ts : Store) (s : State) : State := { s with ts := ts }

/-- `CUR <- t`. -/
def State.setCur (t : BitVec 8) (s : State) : State := { s with cur := t }

/-- `BLEN <- n`. -/
def State.setBlen (n : BitVec 14) (s : State) : State := { s with blen := n }

/-- `BUF[a] <- b`. -/
def State.writeByte (a : Nat) (b : Byte) (s : State) : State := { s with buf := s.buf.write a b }

/-- `BUF[base ..] <- bs`. -/
def State.writeBytes (base : Nat) (bs : List Byte) (s : State) : State :=
  { s with buf := s.buf.writeList base bs }

/-! ### Ending a command -/

/-- `respond(S, d)`: the command ends and its response word waits to be delivered, after a delay the
spec leaves free (00_scope.md section 7.3, R51, R57). The spec does not say that commands take equal
time (91_not_in_source.md N21); that the delay is the same for every command and state with the same
`draws` is a DESIGN CHOICE (log entry 19, unsafe). -/
def State.respond (st : Status) (d : Nat) (s : State) : State :=
  { s with rsp := some (responseWord st d), wait := Config.delay s.draws, draws := s.draws + 1 }

/-- `raise E(d)`: TAKING AN ERROR, the only exception the block has, is `respond(E, d)` and nothing
more: no handler, no saved state, no mode change (R127). `raise E` is `raise E(0)`. There is no
return from it: the next command is an ordinary command (R129). -/
def State.raise (e : Status) (d : Nat) (s : State) : State := s.respond e d

/-! ### The validated cell write (R71) -/

/-- `cell_set(x, y, v)`: `none` where it fails with OutOfRange, nothing written; otherwise the state
with `TS[CUR][x][y]` written and the current tile clamped (R71, R75). -/
def cellSet (x y v : Int) (s : State) : Option State :=
  if inPixel v && inCoord x && inCoord y then
    some (s.setGrid (clampGrid (withCell s.grid (coord x) (coord y) (pixelOf v))))
  else none

end Sys2Proof.Machine
end

