-- ==== Sys2Proof/Machine/BufferAccess.lean ====
section
/-! DEFINITION. The buffer access commands BWR, BRD, SETLEN and RDLEN (spec 44_buffer_access.md R110
to R114). `BLEN` does not limit BWR or BRD. -/

namespace Sys2Proof.Machine

open Sys2Proof

/-- BWR a, b (R110): a value above 255 is refused, not truncated. -/
def execBwr (a b : Int) (s : State) : Outcome :=
  if inAddr a && inByte b then
    .next ((s.writeByte (addrOf a) (byteOf b)).respond .ok 0)
  else .next (s.raise .outOfRange 0)

/-- BRD a (R111). -/
def execBrd (a : Int) (s : State) : Outcome :=
  if inAddr a then .next (s.respond .ok (s.buf.read (addrOf a)).toNat)
  else .next (s.raise .outOfRange 0)

/-- SETLEN n (R112): no byte of `BUF` changes. -/
def execSetlen (n : Int) (s : State) : Outcome :=
  if inLen n then
    let u := s.setBlen (lenOf n)
    .next (u.respond .ok u.blen.toNat)
  else .next (s.raise .outOfRange 0)

/-- RDLEN (R113). -/
def execRdlen (s : State) : Outcome := .next (s.respond .ok s.blen.toNat)

end Sys2Proof.Machine
end

