-- ==== Sys2Proof/Machine/LineRasterizer.lean ====
section
/-! DEFINITION. The LineRasterizer command LINE (spec 42_linerasterizer.md R90 to R95). -/

namespace Sys2Proof.Machine

open Sys2Proof

/-- The direction of an axis-aligned line (R90). -/
inductive Axis where
  /-- `x1 == x2`: y moves. -/
  | vertical
  /-- `y1 == y2`: x moves. -/
  | horizontal
  deriving DecidableEq, Repr

/-- The x of the point with fixed coordinate `f` and moving coordinate `m` (R90). -/
def pointX (ax : Axis) (f m : Int) : Int :=
  match ax with
  | .vertical => f
  | .horizontal => m

/-- The y of the point with fixed coordinate `f` and moving coordinate `m` (R90). -/
def pointY (ax : Axis) (f m : Int) : Int :=
  match ax with
  | .vertical => m
  | .horizontal => f

/-- The loop of R90 over `count` points from moving coordinate `m` on, `n` points already written:
the state it leaves, the status, and the number of points written. The first point that fails stops
it and the earlier points stay written (R94). -/
def drawRun (ax : Axis) (f v : Int) : (count : Nat) → (m : Int) → (n : Nat) → State →
    State × Status × Nat
  | 0, _, n, s => (s, .ok, n)
  | count + 1, m, n, s =>
    match cellSet (pointX ax f m) (pointY ax f m) v s with
    | none => (s, .outOfRange, n)
    | some t => drawRun ax f v count (m + 1) (n + 1) t

/-- The loop over the moving coordinate from the smaller to the larger of `m1` and `m2`, both
included (R90, R93). -/
def drawSpan (ax : Axis) (f v m1 m2 : Int) (s : State) : State × Status × Nat :=
  drawRun ax f v (max m1 m2 - min m1 m2 + 1).toNat (min m1 m2) 0 s

/-- LINE x1, y1, x2, y2, v (R90): the axis check comes before everything else (R92). -/
def execLine (x1 y1 x2 y2 v : Int) (s : State) : Outcome :=
  if axisAligned x1 y1 x2 y2 then
    let r := if x1 = x2 then drawSpan .vertical x1 v y1 y2 s else drawSpan .horizontal y1 v x1 x2 s
    .next (r.1.respond r.2.1 r.2.2)
  else .next (s.raise .validationError 0)

end Sys2Proof.Machine
end

