-- ==== Sys2Proof/Machine/PixelGrid.lean ====
section
/-! DEFINITION. The PixelGrid commands GET, SET and CLAMP (spec 40_pixelgrid.md R70 to R76). -/

namespace Sys2Proof.Machine

open Sys2Proof

/-- GET x, y (R70). -/
def execGet (x y : Int) (s : State) : Outcome :=
  if inCoord x && inCoord y then
    .next (s.respond .ok (cellAt s.grid (coord x) (coord y)).toNat)
  else .next (s.raise .outOfRange 0)

/-- SET x, y, v (R72): the answer is the cell just written, after the clamp (R73). -/
def execSet (x y v : Int) (s : State) : Outcome :=
  match cellSet x y v s with
  | none => .next (s.raise .outOfRange 0)
  | some t => .next (t.respond .ok (cellAt t.grid (coord x) (coord y)).toNat)

/-- CLAMP (R74). -/
def execClamp (s : State) : Outcome :=
  .next ((s.setGrid (clampGrid s.grid)).respond .ok 0)

end Sys2Proof.Machine
end

