-- ==== Sys2Proof/Machine/TileCodec.lean ====
section
/-! DEFINITION. The TileCodec commands ENC and DEC (spec 41_tilecodec.md R80 to R86). -/

namespace Sys2Proof.Machine

open Sys2Proof

/-- ENC (R80): clamp the current tile, write its encoding to `BUF[0..15]`, set `BLEN` to 16. -/
def execEnc (s : State) : Outcome :=
  let t := s.setGrid (clampGrid s.grid)
  .next (((t.writeBytes 0 (encodeTile t.grid).toList).setBlen 16).respond .ok 0)

/-- DEC (R82, R83): the length is checked first; the tile is computed into a temporary grid and
committed at once. -/
def execDec (s : State) : Outcome :=
  if s.blen.toNat ≠ Config.tileBytes then .next (s.raise .formatError 0)
  else
    let g := clampGrid (decodeTile (s.buf.readTile 0))
    .next ((s.setGrid g).respond .ok 0)

end Sys2Proof.Machine
end

