-- ==== Sys2Proof/Machine/TileStore.lean ====
section
/-! DEFINITION. The TileStore commands SELECT, RDCUR, SER and DESER (spec 43_tilestore.md R100 to
R106). -/

namespace Sys2Proof.Machine

open Sys2Proof

/-- SELECT t (R100). -/
def execSelect (t : Int) (s : State) : Outcome :=
  if inTile t then
    let u := s.setCur (tileOf t)
    .next (u.respond .ok u.cur.toNat)
  else .next (s.raise .outOfRange 0)

/-- RDCUR (R101). -/
def execRdcur (s : State) : Outcome := .next (s.respond .ok s.cur.toNat)

/-- SER (R102): clamp every tile, write the store image to `BUF[0..4095]`, set `BLEN` to 4096. -/
def execSer (s : State) : Outcome :=
  let t := s.setStore (clampStore s.ts)
  .next (((t.writeBytes 0 (storeImage t.ts)).setBlen 4096).respond .ok 0)

/-- DESER (R104, R105): the length is checked first; all tiles are computed into a temporary store
and committed at once. -/
def execDeser (s : State) : Outcome :=
  if s.blen.toNat ≠ Config.storeBytes then .next (s.raise .formatError 0)
  else .next ((s.setStore (decodeStore s.buf)).respond .ok 0)

end Sys2Proof.Machine
end

