-- ==== Sys2Proof/Machine/Dispatch.lean ====
section
/-! DEFINITION. One arm per command: the meaning of each (spec 30_encoding.md R52, R56). -/

namespace Sys2Proof.Machine

open Sys2Proof

def exec (i : Instr) (s : State) : Host.Outcome State Fault Refusal :=
  match i with
  -- PixelGrid (40_pixelgrid.md)
  | .get x y => Sys2Proof.Machine.execGet x y s
  | .set x y v => Sys2Proof.Machine.execSet x y v s
  | .clamp => Sys2Proof.Machine.execClamp s
  -- TileCodec (41_tilecodec.md)
  | .enc => Sys2Proof.Machine.execEnc s
  | .dec => Sys2Proof.Machine.execDec s
  -- LineRasterizer (42_linerasterizer.md)
  | .line x1 y1 x2 y2 v => Sys2Proof.Machine.execLine x1 y1 x2 y2 v s
  -- TileStore (43_tilestore.md)
  | .select t => Sys2Proof.Machine.execSelect t s
  | .rdcur => Sys2Proof.Machine.execRdcur s
  | .ser => Sys2Proof.Machine.execSer s
  | .deser => Sys2Proof.Machine.execDeser s
  -- buffer access (44_buffer_access.md)
  | .bwr a b => Sys2Proof.Machine.execBwr a b s
  | .brd a => Sys2Proof.Machine.execBrd a s
  | .setlen n => Sys2Proof.Machine.execSetlen n s
  | .rdlen => Sys2Proof.Machine.execRdlen s

end Sys2Proof.Machine
end

