-- ==== Sys2Proof/Machine/Ports.lean ====
section
/-! DEFINITION. The ports and the handshake: what the block does at one rising edge of `clk` (spec
30_encoding.md R50 to R52, 70_reset_and_hazards.md R140 to R143, R149, R150), and the execution of an
accepted command word (R52, R59 to R62, R125). -/

namespace Sys2Proof.Machine

open Sys2Proof

/-! ### Output pins (R50, R51) -/

/-- `cmd_ready`: no command is in flight and no delay is running. R50 to R52 and R150 leave open whether
it may fall again, once 1, with no command accepted and `rst` at 0; that it stays 1 until an acceptance
or a reset, and is a function of the state alone, is a DESIGN CHOICE (log entry 20, unsafe). -/
def State.cmdReady (s : State) : Bool := s.rsp.isNone && s.wait == 0

/-- `rsp_valid`: the command in flight is complete and its response not yet taken. -/
def State.rspValid (s : State) : Bool := s.rsp.isSome && s.wait == 0

/-- `rsp_word` while `rsp_valid` is 1; the spec gives it no value otherwise (log entry 9). -/
def State.rspWord (s : State) : Option RspWord := if s.wait = 0 then s.rsp else none

/-! ### Input pins -/

/-- A host that does nothing: no reset, no offer, no readiness to take a response. -/
def idlePins : PortIn := { rst := false, cmdValid := false, cmdWord := 0, rspReady := false }

/-- The pins at the next edge; a host with no samples left does nothing (log entry 1). -/
def State.pins (s : State) : PortIn := s.inputs.headD idlePins

/-- The state with the next edge's sample used up. -/
def State.popPins (s : State) : State := { s with inputs := s.inputs.tail }

/-! ### What an edge can do -/

/-- `rst` is 1: every piece of state takes its reset value, a command in flight is abandoned and a
pending response withdrawn (R140, R142); `cmd_ready` may stay low for a free number of edges (R143,
log entries 2 and 19).
What the host has and will do (`delivered`, `inputs`) is not the block's to reset. -/
def State.hardReset (s : State) : State :=
  { State.reset with
    inputs := s.inputs
    delivered := s.delivered
    wait := Config.delay s.draws
    draws := s.draws + 1 }

/-- One edge of a running delay passes. -/
def State.tick (s : State) : State := { s with wait := s.wait - 1 }

/-- The response is delivered, and `cmd_ready` may stay low for a free number of edges (R51, log
entries 2 and 19). R51 says only that `cmd_ready` may return to 1, and R151 does not list this delay
among the finite ones; that it is finite is a DESIGN CHOICE (log entry 21, unsafe). -/
def State.deliver (r : RspWord) (s : State) : State :=
  { s with
    rsp := none
    delivered := s.delivered ++ [r]
    wait := Config.delay s.draws
    draws := s.draws + 1 }

/-- The execution of an accepted command word, the `step` of R52: a word that is not a command
raises IllegalCommand and changes nothing else (R59 to R62, R125). -/
def execWord (w : CmdWord) (s : State) : Outcome :=
  match decode w with
  | .ok i => exec i s
  | .error _ => .next (s.raise .illegalCommand 0)

/-- One rising edge of `clk`. In this order: `rst` wins (R140, R142, log entry 4); a running delay
takes the edge; a response offered is delivered when the host is ready and held otherwise (R51,
R150); a command offered to a ready block is accepted and executed (R51, log entry 3); otherwise
nothing happens (R149), and `cmd_ready` too stays as it is, which is a DESIGN CHOICE (log entry 20,
unsafe). -/
def edge (s : State) : Outcome :=
  let p := s.pins
  let t := s.popPins
  if p.rst then .next t.hardReset
  else if s.wait ≠ 0 then .next t.tick
  else
    match s.rsp with
    | some r => if p.rspReady then .next (t.deliver r) else .next t
    | none => if p.cmdValid then execWord p.cmdWord t else .next t

/-- The pins of a host that offers this command word. -/
def offerPins (w : CmdWord) : PortIn :=
  { rst := false, cmdValid := true, cmdWord := w, rspReady := false }

/-- The pins of a host that is ready to take a response. -/
def takePins : PortIn := { rst := false, cmdValid := false, cmdWord := 0, rspReady := true }

/-- The block ready for a command, and the host offering the command word numbered `w` at the next
edge (log entry 10). -/
def State.offered (s : State) (nbits w : Nat) : State :=
  { s with
    rsp := none
    wait := 0
    inputs := offerPins (BitVec.ofNat 96 (w % 2 ^ nbits)) :: s.inputs }

end Sys2Proof.Machine
end

