-- ==== Sys2Proof/Machine/Step.lean ====
section
/-! DEFINITION. One step of the machine is one rising edge of `clk` (spec 30_encoding.md R50, R51). -/

namespace Sys2Proof.Machine

open Sys2Proof

/-- One step: one rising edge of `clk`. -/
def step (s : State) : Host.Outcome State Fault Refusal := edge s

/-- The state in which the very next step accepts and executes the command word `w`. The block does
not fetch (R19, R45): words come from the port, so this is the host offering the word to a ready
block (log entry 10). -/
def State.withFetchWord (s : State) (nbits w : Nat) : State := s.offered nbits w

end Sys2Proof.Machine
end

