-- ==== Sys2Proof/Machine/Asm.lean ====
section
/-! DEFINITION. The host's notation for commands: the assembler syntax and the pseudo-instructions
(spec 30_encoding.md R63, R64). Text is a list of characters. Nothing the block does depends on this
file; it turns text and pseudo-instructions into the commands a host issues. -/

namespace Sys2Proof

/-! ### Pseudo-instructions (R64) -/

/-- The six pseudo-instructions of R64. -/
inductive Pseudo where
  /-- `BLOAD a, b0 b1 ... bk`: place a byte sequence in `BUF` from address a on. -/
  | bload (a : Int) (bytes : List Int)
  /-- `BDUMP a, n`: read n bytes of `BUF` from address a on. -/
  | bdump (a : Int) (n : Nat)
  /-- `PUTTILE b0 ... b15`: decode sixteen bytes into the current tile. -/
  | puttile (bytes : Vector Int 16)
  /-- `GETTILE`: encode the current tile and read the sixteen bytes. -/
  | gettile
  /-- `SAVE`: serialize the store and read the 4096 bytes. -/
  | save
  /-- `LOAD b0 ... b(n-1)`: load an n-byte file image. -/
  | load (bytes : List Int)
  deriving DecidableEq, Repr

/-- `BWR a, b0`; `BWR a+1, b1`; ... (R64). -/
def expandBload (a : Int) : List Int → List Instr
  | [] => []
  | b :: bs => .bwr a b :: expandBload (a + 1) bs

/-- `BRD a`; `BRD a+1`; ...; `BRD a+n-1` (R64). -/
def expandBdump (a : Int) : Nat → List Instr
  | 0 => []
  | n + 1 => .brd a :: expandBdump (a + 1) n

/-- The commands a pseudo-instruction stands for, in order (R64). -/
def expandPseudo : Pseudo → List Instr
  | .bload a bytes => expandBload a bytes
  | .bdump a n => expandBdump a n
  | .puttile bytes => expandBload 0 bytes.toList ++ [.setlen 16, .dec]
  | .gettile => .enc :: expandBdump 0 16
  | .save => .ser :: expandBdump 0 4096
  | .load bytes => expandBload 0 bytes ++ [.setlen bytes.length, .deser]

/-! ### Assembler syntax (R63) -/

/-- The mnemonics of R56, in capitals. -/
def mnemonicText : Opcode → List Char
  | .get => ['G', 'E', 'T']
  | .set => ['S', 'E', 'T']
  | .clamp => ['C', 'L', 'A', 'M', 'P']
  | .enc => ['E', 'N', 'C']
  | .dec => ['D', 'E', 'C']
  | .line => ['L', 'I', 'N', 'E']
  | .select => ['S', 'E', 'L', 'E', 'C', 'T']
  | .rdcur => ['R', 'D', 'C', 'U', 'R']
  | .ser => ['S', 'E', 'R']
  | .deser => ['D', 'E', 'S', 'E', 'R']
  | .bwr => ['B', 'W', 'R']
  | .brd => ['B', 'R', 'D']
  | .setlen => ['S', 'E', 'T', 'L', 'E', 'N']
  | .rdlen => ['R', 'D', 'L', 'E', 'N']

/-- A blank between the parts of a line: a space or a tab (log entry 15). -/
def isBlank (c : Char) : Bool := c == ' ' || c == '\t'

/-- Text without the blanks at its two ends. -/
def trimBlanks (l : List Char) : List Char :=
  ((l.dropWhile isBlank).reverse.dropWhile isBlank).reverse

/-- The parts of a text between the separators `sep`. -/
def splitAtChar (sep : Char) : List Char → List (List Char)
  | [] => [[]]
  | c :: cs =>
    if c == sep then [] :: splitAtChar sep cs
    else
      match splitAtChar sep cs with
      | [] => [[c]]
      | p :: ps => (c :: p) :: ps

/-- A decimal digit. -/
def decimalDigit (c : Char) : Option Nat :=
  if 48 ≤ c.toNat ∧ c.toNat ≤ 57 then some (c.toNat - 48) else none

/-- A hexadecimal digit, in either case (log entry 15). -/
def hexDigit (c : Char) : Option Nat :=
  if 65 ≤ c.toNat ∧ c.toNat ≤ 70 then some (c.toNat - 55)
  else if 97 ≤ c.toNat ∧ c.toNat ≤ 102 then some (c.toNat - 87)
  else decimalDigit c

/-- The number the digits stand for, the digits read so far standing for `acc`. -/
def digitsFrom (base : Nat) (digit : Char → Option Nat) (acc : Nat) : List Char → Option Nat
  | [] => some acc
  | c :: cs => (digit c).bind fun d => digitsFrom base digit (base * acc + d) cs

/-- The number of a text of one or more digits. -/
def numberOf (base : Nat) (digit : Char → Option Nat) (l : List Char) : Option Nat :=
  if l = [] then none else digitsFrom base digit 0 l

/-- An operand: a signed decimal integer, or `0x` and a non-negative hexadecimal one (R63). -/
def parseOperand : List Char → Option Int
  | '0' :: 'x' :: l => (numberOf 16 hexDigit l).map Int.ofNat
  | '-' :: l => (numberOf 10 decimalDigit l).map fun n => -(n : Int)
  | l => (numberOf 10 decimalDigit l).map Int.ofNat

/-- All operands of a list of operand texts. -/
def parseOperands : List (List Char) → Option (List Int)
  | [] => some []
  | l :: ls => (parseOperand l).bind fun n => (parseOperands ls).map fun ns => n :: ns

/-- The command with this opcode and exactly its operands, in the order A to E (R55, R63). -/
def instrOf : Opcode → List Int → Option Instr
  | .get, [x, y] => some (.get x y)
  | .set, [x, y, v] => some (.set x y v)
  | .clamp, [] => some .clamp
  | .enc, [] => some .enc
  | .dec, [] => some .dec
  | .line, [x1, y1, x2, y2, v] => some (.line x1 y1 x2 y2 v)
  | .select, [t] => some (.select t)
  | .rdcur, [] => some .rdcur
  | .ser, [] => some .ser
  | .deser, [] => some .deser
  | .bwr, [a, b] => some (.bwr a b)
  | .brd, [a] => some (.brd a)
  | .setlen, [n] => some (.setlen n)
  | .rdlen, [] => some .rdlen
  | _, _ => none

/-- The part of a line before a comment, without blanks at its ends; `;` starts a comment (R63). -/
def lineBody (l : List Char) : List Char := trimBlanks (l.takeWhile fun c => c != ';')

/-- One line to one command: the mnemonic, then the operands separated by commas. `none` where the
line is not a command or an operand cannot be assembled (R63). -/
def assembleLine (l : List Char) : Option Instr :=
  let body := lineBody l
  let name := body.takeWhile fun c => !isBlank c
  let rest := trimBlanks (body.dropWhile fun c => !isBlank c)
  let texts := if rest = [] then [] else (splitAtChar ',' rest).map trimBlanks
  (allOpcodes.find? fun o => mnemonicText o == name).bind fun o =>
    (parseOperands texts).bind fun ops => (instrOf o ops).filter Instr.wf

/-- A text of lines, one command per line, lines without a command skipped (R63). -/
def assembleText (l : List Char) : Option (List Instr) :=
  ((splitAtChar '\n' l).filter fun line => lineBody line != []).foldr
    (fun line acc => (assembleLine line).bind fun i => acc.map fun is => i :: is) (some [])

end Sys2Proof
end

