-- ==== Sys2Proof/Machine/Run.lean ====
section
/-! DEFINITION. The transaction level: one command at a time with its response, and lists of commands
issued in order (spec 30_encoding.md R52, R64; 70_reset_and_hazards.md R152). No pins and no delays
appear in it; the signal level is Sys2Proof/Machine/Ports.lean, and `edges` runs it. -/

namespace Sys2Proof.Machine

open Sys2Proof

/-- What an outcome's next state is, if there is one. -/
def nextOf : Outcome → Option State
  | .next s => some s
  | .fault _ => none
  | .refused _ => none

/-- A command with its response word: R52's `step` on one decoded command. -/
def transactInstr (i : Instr) (s : State) : Option (State × RspWord) :=
  (nextOf (exec i s)).bind fun t => t.rsp.map fun r => (t, r)

/-- A command word with its response word: R52's `step`. -/
def transact (w : CmdWord) (s : State) : Option (State × RspWord) :=
  (nextOf (execWord w s)).bind fun t => t.rsp.map fun r => (t, r)

/-- A list of commands issued in order, whatever each answers, and the list of their responses
(R64, R152). -/
def runInstrs : List Instr → State → Option (State × List RspWord)
  | [], s => some (s, [])
  | i :: is, s =>
    (transactInstr i s).bind fun q => (runInstrs is q.1).map fun z => (z.1, q.2 :: z.2)

/-- A list of command words issued in order, and the list of their responses (R152). -/
def runWords : List CmdWord → State → Option (State × List RspWord)
  | [], s => some (s, [])
  | w :: ws, s =>
    (transact w s).bind fun q => (runWords ws q.1).map fun z => (z.1, q.2 :: z.2)

/-- The state after `n` rising edges of `clk` (R50). -/
def edges : Nat → State → Option State
  | 0, s => some s
  | n + 1, s => (nextOf (step s)).bind (edges n)

/-- The command word that the next edge accepts, if any: `rst` is 0 and `cmd_valid` and `cmd_ready` are
both 1 (R51). -/
def State.accepting (s : State) : Option CmdWord :=
  if !s.pins.rst && s.pins.cmdValid && s.cmdReady then some s.pins.cmdWord else none

/-- The command words that the next `n` edges accept, in order (R51, R52). -/
def acceptedWords : Nat → State → List CmdWord
  | 0, _ => []
  | n + 1, s => s.accepting.toList ++ ((nextOf (step s)).map (acceptedWords n)).getD []

/-- The pins of a host that offers each word in turn and, after each, is ready to take a response for
the number of edges beside it. -/
def servePins : List (CmdWord × Nat) → List PortIn
  | [] => []
  | (w, n) :: rest => offerPins w :: (List.replicate n takePins ++ servePins rest)

end Sys2Proof.Machine
end

