-- ==== Sys2Proof/Safety.lean ====
section
/-! DEFINITION. What every reachable state of the block satisfies, in the terms claims use (spec
10_state.md R16, R17; 60_exceptions.md R120, R122; 30_encoding.md R57). That a tile store has 256
tiles of 64 cells, each in [0,3] (R10 to R12), and that `CUR` names a tile (R15) hold by the types. -/

namespace Sys2Proof.Machine

open Sys2Proof

/-- A response word the block can produce: its status is one of 0, 2, 3, 4, 5 (1 is allotted and
never raised, R122, and 6 to 255 are never produced, R120) and its data is at most 8192 (R57). -/
def LegalResponse (r : RspWord) : Prop :=
  rspStatus r ∈ [0#8, 2#8, 3#8, 4#8, 5#8] ∧ (rspData r).toNat ≤ 8192

/-- The machine's invariant: the byte space keeps its canonical form, `BLEN` holds a legal value
(R17), and every response pending or delivered is one the block can produce. -/
structure Inv (s : State) : Prop where
  bufCanonical : s.buf.wf = true
  blenLegal : s.blen.toNat ≤ 8192
  pendingLegal : ∀ r, s.rsp = some r → LegalResponse r
  deliveredLegal : ∀ r ∈ s.delivered, LegalResponse r

end Sys2Proof.Machine
end

