-- ==== Sys2Proof/Certificates/Slice0/Obligations.lean ====
section
/-! DEFINITION. The statements for the provers, from the numbered rules of spec/. Response status
numbers, masks and formulas stand here as the spec prints them, not by the model's own names. -/

namespace Sys2Proof.Statements

open Sys2Proof Sys2Proof.Machine

/-- The command runs to its end and answers `data` with status `code` (R57: status in bits [7:0],
data in bits [23:8]); the host's side of the ports is as before. -/
def Answers (i : Instr) (s : State) (code : BitVec 8) (data : Nat) (t : State) : Prop :=
  exec i s = .next t ∧ t.rsp = some (BitVec.ofNat 16 data ++ code) ∧
    t.inputs = s.inputs ∧ t.delivered = s.delivered

/-- The command answers an error with this status and data and changes no architectural state. -/
def Refuses (i : Instr) (s : State) (code : BitVec 8) (data : Nat) : Prop :=
  ∃ t, Answers i s code data t ∧ t.arch = s.arch

/-- The fourteen opcode values of R56. -/
def fourteenOpcodes : List (BitVec 8) :=
  [0x10, 0x11, 0x12, 0x20, 0x21, 0x30, 0x40, 0x41, 0x42, 0x43, 0x50, 0x51, 0x52, 0x53]

/-- The word answers status 5 with data 0 and changes no state (R59). -/
def AnswersIllegal (w : CmdWord) (s : State) : Prop :=
  ∃ t, execWord w s = .next t ∧ t.rsp = some (0#16 ++ 5#8) ∧ t.arch = s.arch ∧
    t.inputs = s.inputs ∧ t.delivered = s.delivered

/-- `sext_16` of operand field `k` of a word, 0 for A up to 4 for E (R54, R55). -/
def operandAt (w : CmdWord) (k : Nat) : Int := (w.extractLsb' (16 + 16 * k) 16).toInt

/-- `sum over x in 0..7 of (((g[x][y] >> p) & 1) << (7 - x))`, the formula of R7. -/
def planeSum (g : Grid) (p : Nat) (y : Fin 8) : Nat :=
  ∑ x : Fin 8, (((cellAt g x y).toNat >>> p) &&& 1) <<< (7 - x.val)

/-- `((lo >> (7 - x)) & 1) | (((hi >> (7 - x)) & 1) << 1)`, the formula of R8. -/
def pixelFrom (lo hi : Byte) (x : Fin 8) : Nat :=
  ((lo.toNat >>> (7 - x.val)) &&& 1) ||| (((hi.toNat >>> (7 - x.val)) &&& 1) <<< 1)

/-- The cells of the current tile in column (vertical) or row (horizontal) `f` with moving coordinate
from `lo` to `hi` hold `v` in `t`; every other cell of every tile, and `CUR`, `BLEN` and `BUF`, are
as in `s`. -/
def Drawn (vertical : Bool) (f lo hi v : Int) (s t : State) : Prop :=
  (∀ (n : BitVec 8) (x y : Fin 8), cellAt (tileAt t.ts n) x y =
    if n = s.cur ∧ (if vertical then (x.val : Int) = f ∧ lo ≤ (y.val : Int) ∧ (y.val : Int) ≤ hi
        else (y.val : Int) = f ∧ lo ≤ (x.val : Int) ∧ (x.val : Int) ≤ hi)
    then BitVec.ofInt 2 v else cellAt (tileAt s.ts n) x y) ∧
  t.cur = s.cur ∧ t.blen = s.blen ∧ t.buf = s.buf

/-- The table of R95, first condition that holds, for a line with fixed coordinate `f` and moving
coordinate from `lo` to `hi`. -/
def LineTable (i : Instr) (vertical : Bool) (f lo hi v : Int) (s : State) : Prop :=
  if v < 0 ∨ 3 < v ∨ f < 0 ∨ 7 < f ∨ lo < 0 ∨ 7 < lo then Refuses i s 2 0
  else if 7 < hi then ∃ t, Answers i s 2 (8 - lo).toNat t ∧ Drawn vertical f lo 7 v s t
  else ∃ t, Answers i s 0 (hi - lo + 1).toNat t ∧ Drawn vertical f lo hi v s t

/-- The cases of R121's table. -/
def outOfRangeCase : Instr → Prop
  | .get x y => ¬(0 ≤ x ∧ x ≤ 7 ∧ 0 ≤ y ∧ y ≤ 7)
  | .set x y v => ¬(0 ≤ v ∧ v ≤ 3 ∧ 0 ≤ x ∧ x ≤ 7 ∧ 0 ≤ y ∧ y ≤ 7)
  | .line x1 y1 x2 y2 v => Xor (x1 = x2) (y1 = y2) ∧
      ¬(0 ≤ v ∧ v ≤ 3 ∧ 0 ≤ x1 ∧ x1 ≤ 7 ∧ 0 ≤ x2 ∧ x2 ≤ 7 ∧ 0 ≤ y1 ∧ y1 ≤ 7 ∧ 0 ≤ y2 ∧ y2 ≤ 7)
  | .select t => ¬(0 ≤ t ∧ t ≤ 255)
  | .bwr a b => ¬(0 ≤ a ∧ a ≤ 8191 ∧ 0 ≤ b ∧ b ≤ 255)
  | .brd a => ¬(0 ≤ a ∧ a ≤ 8191)
  | .setlen n => ¬(0 ≤ n ∧ n ≤ 8192)
  | .clamp => False
  | .enc => False
  | .dec => False
  | .rdcur => False
  | .ser => False
  | .deser => False
  | .rdlen => False

/-- The bytes a command stores to: ENC at 0 to 15, SER at 0 to 4095, BWR at its address (R31, R37). -/
def storesByte : Instr → Nat → Prop
  | .enc, a => a < 16
  | .ser, a => a < 4096
  | .bwr a' _, a => a = addrOf a'
  | .get _ _, _ => False
  | .set _ _ _, _ => False
  | .clamp, _ => False
  | .dec, _ => False
  | .line _ _ _ _ _, _ => False
  | .select _, _ => False
  | .rdcur, _ => False
  | .deser, _ => False
  | .brd _, _ => False
  | .setlen _, _ => False
  | .rdlen, _ => False

/-- The cells a command may write: SET its cell, LINE the points between its endpoints, DEC the
current tile, DESER every tile (R14, R31). -/
def mayWriteCell (i : Instr) (s : State) (n : BitVec 8) (x y : Fin 8) : Prop :=
  match i with
  | .set a b _ => n = s.cur ∧ (x.val : Int) = a ∧ (y.val : Int) = b
  | .line x1 y1 x2 y2 _ => n = s.cur ∧ min x1 x2 ≤ (x.val : Int) ∧ (x.val : Int) ≤ max x1 x2 ∧
      min y1 y2 ≤ (y.val : Int) ∧ (y.val : Int) ≤ max y1 y2 ∧ Xor (x1 = x2) (y1 = y2)
  | .dec => n = s.cur
  | .deser => True
  | .get _ _ => False
  | .clamp => False
  | .enc => False
  | .select _ => False
  | .rdcur => False
  | .ser => False
  | .bwr _ _ => False
  | .brd _ => False
  | .setlen _ => False
  | .rdlen => False

/-- The commands that write nothing (R42: "Reading (GET, BRD, RDCUR, RDLEN) changes nothing"). -/
def onlyReads : Instr → Prop
  | .get _ _ => True
  | .brd _ => True
  | .rdcur => True
  | .rdlen => True
  | .set _ _ _ => False
  | .clamp => False
  | .enc => False
  | .dec => False
  | .line _ _ _ _ _ => False
  | .select _ => False
  | .ser => False
  | .deser => False
  | .bwr _ _ => False
  | .setlen _ => False

end Sys2Proof.Statements

open Sys2Proof Sys2Proof.Machine Sys2Proof.Statements

/-! ### Encoding -/

/-- R66, R55: for every well-formed command, decoding its word gives it back, operands included.
All fourteen commands, every operand value a field admits. -/
def Obligations.DecodeOfEncodeIsTheCommand : Prop :=
  ∀ i : Instr, i.wf = true → decode (encode i) = .ok i

/-- R66: a legal word is the encoding of the command it decodes to, which is well formed; so two
legal words that decode to the same command are the same word. -/
def Obligations.DecodingIsInjectiveOnLegalWords : Prop :=
  (∀ (w : CmdWord) (i : Instr), decode w = .ok i → i.wf = true ∧ encode i = w) ∧
  ∀ (w w' : CmdWord) (i : Instr), decode w = .ok i → decode w' = .ok i → w = w'

/-- R61: a word is a legal command exactly when it satisfies one (match, mask) pair of R56, and then
it is that row's command. -/
def Obligations.LegalWordMatchesOneRow : Prop :=
  (∀ w : CmdWord, (∃ i, decode w = .ok i) ↔ ∃ o, w &&& maskOf o = matchOf o) ∧
  ∀ (w : CmdWord) (i : Instr), decode w = .ok i → w &&& maskOf i.opcode = matchOf i.opcode

/-- The text under R56's table: no word satisfies two (match, mask) pairs. -/
def Obligations.OpcodeRowsAreDisjoint : Prop :=
  ∀ (w : CmdWord) (o o' : Opcode), w &&& maskOf o = matchOf o → w &&& maskOf o' = matchOf o' → o = o'

/-- Words written out in the spec's examples decode to the commands they stand for (sanity). -/
def Obligations.SpecExampleWordsDecode : Prop :=
  decode 0x000000000001000300020011 = .ok (.set 2 3 1) ∧
  decode 0x000000000000000000000020 = .ok .enc ∧
  decode 0x000100060002000300020030 = .ok (.line 2 3 2 6 1) ∧
  decode 0x0000000000000000FFFF0040 = .ok (.select (-1)) ∧
  decode 0x00000000000000F000000050 = .ok (.bwr 0 0xF0) ∧
  decode 0x000000000000000080000010 = .ok (.get (-32768) 0)

/-! ### Reset, the step and the ports -/

/-- R23: the reset state: every cell 0, `CUR` 0, `BLEN` 0, every byte of `BUF` 0x00, not busy (no
command in flight, no response pending). -/
def Obligations.ResetStateHoldsTheResetValues : Prop :=
  (∀ (n : BitVec 8) (x y : Fin 8), cellAt (tileAt State.reset.ts n) x y = 0) ∧
  State.reset.cur = 0 ∧ State.reset.blen = 0 ∧ (∀ a, a < 8192 → State.reset.buf.read a = 0) ∧
  State.reset.rsp = none ∧ State.reset.rspValid = false

/-- R140: at every edge with `rst` at 1 the block takes the reset state whatever came before: the
architectural state is as after reset, no command is in flight and `rsp_valid` is 0. -/
def Obligations.ResetEdgeGivesTheResetState : Prop :=
  ∀ s : State, s.pins.rst = true → ∃ t, step s = .next t ∧ t.arch = State.reset.arch ∧
    t.rsp = none ∧ t.rspValid = false

/-- R142: an edge with `rst` at 1 delivers nothing: a command in flight is abandoned and a pending
response withdrawn. That this holds also where the host is ready to take the response at that same
edge is the model's reading of R142 (log entry 4). -/
def Obligations.ResetEdgeDeliversNothing : Prop :=
  ∀ s : State, s.pins.rst = true → ∃ t, step s = .next t ∧ t.rsp = none ∧
    t.delivered = s.delivered ∧ t.inputs = s.inputs.tail

/-- R143, R151: after an edge with `rst` at 1 and then edges with `rst` at 0 the block is ready after a
finite number of edges, whatever else the pins do at each of them, and its state is still the reset
state, and nothing has been delivered. The number of edges is a free value; that one number serves every
host is the model's choice (log entry 19), and so is that nothing is delivered at the edge with `rst` at 1
where `rsp_valid` and `rsp_ready` are both 1 there (log entry 4, the model's reading of R142 beside
R51). -/
def Obligations.ReadyAfterResetInFiniteTime : Prop :=
  ∀ (s : State) (p : PortIn), p.rst = true →
    ∃ n : Nat, ∀ pins more : List PortIn, pins.length = n → (∀ q ∈ pins, q.rst = false) →
      ∃ t : State, edges (n + 1) { s with inputs := p :: (pins ++ more) } = some t ∧
        t.cmdReady = true ∧ t.arch = State.reset.arch ∧ t.delivered = s.delivered ∧ t.inputs = more

/-- R52: the step is a total function: it always answers a next state, whatever the state and the
pins. -/
def Obligations.EveryStepAnswersANextState : Prop :=
  (∀ s : State, ∃ t, step s = .next t) ∧
  ∀ (w : CmdWord) (s : State), ∃ t r, transact w s = some (t, r)

/-- R51: when the block is ready, `rst` is 0 and the host offers a word that decodes to a command,
the step is `exec` of that command at the state with this edge's pins used up. That the whole effect
of the command happens at this edge, the edge of acceptance, is the model's choice (log entry 3). -/
def Obligations.StepRunsTheOfferedCommand : Prop :=
  ∀ (s : State) (i : Instr), s.pins.rst = false → s.cmdReady = true → s.pins.cmdValid = true →
    decode s.pins.cmdWord = .ok i → step s = exec i { s with inputs := s.inputs.tail }

/-- R59, R60, R61: a word whose opcode is not one of the fourteen, whose byte `rsv` is not zero, or that
satisfies no (match, mask) pair of R56 answers IllegalCommand and changes no state; 242 of the 256
opcode values are such; a word that satisfies a pair is a command, whatever operands it carries. -/
def Obligations.IllegalWordAnswersIllegalCommand : Prop :=
  (∀ (w : CmdWord) (s : State), w.extractLsb' 0 8 ∉ fourteenOpcodes → AnswersIllegal w s) ∧
  ((List.range 256).filter fun c => BitVec.ofNat 8 c ∉ fourteenOpcodes).length = 242 ∧
  (∀ (w : CmdWord) (s : State), w.extractLsb' 8 8 ≠ 0 → AnswersIllegal w s) ∧
  (∀ (w : CmdWord) (s : State), (¬∃ o, w &&& maskOf o = matchOf o) → AnswersIllegal w s) ∧
  ∀ (w : CmdWord) (s : State), (∃ o, w &&& maskOf o = matchOf o) →
    ∃ i, decode w = .ok i ∧ execWord w s = exec i s

/-- R149: the block never acts on its own: at an edge with `rst` at 0 and no command in flight, where
none is accepted, no architectural state changes and nothing is delivered. -/
def Obligations.BlockNeverActsOnItsOwn : Prop :=
  ∀ s : State, s.pins.rst = false → s.rsp = none → (s.pins.cmdValid && s.cmdReady) = false →
    ∃ t, step s = .next t ∧ t.arch = s.arch ∧ t.rsp = none ∧ t.delivered = s.delivered

/-- R51, R150: while a command is in flight no edge with `rst` at 0 accepts another one or changes
architectural state; the response word is held until an edge with `rsp_valid` and `rsp_ready` both 1,
and at that edge it is delivered and `rsp_valid` returns to 0. That the architectural state is already
the command's and its response word already fixed at the edges before `rsp_valid` is the model's choice
(log entry 3). -/
def Obligations.ResponseIsHeldUntilTaken : Prop :=
  ∀ (s : State) (r : RspWord), s.pins.rst = false → s.rsp = some r →
    ∃ t, step s = .next t ∧ t.arch = s.arch ∧ s.cmdReady = false ∧
      (if s.rspValid = true ∧ s.pins.rspReady = true
       then t.rspValid = false ∧ t.delivered = s.delivered ++ [r]
       else t.rsp = some r ∧ t.delivered = s.delivered ∧ (s.rspValid = true → t.rspValid = true))

/-- R51, R52, R151: a command word accepted by a ready block, with a host that keeps `rsp_ready` at 1,
is answered after a finite number of edges by exactly one response, the one of R52's `step`, and the
block is ready again, its architectural state the one `step` leaves. The number of edges is a free
value; that the block is ready again after finitely many edges after the delivery is the model's choice
(log entry 21). -/
def Obligations.AcceptedCommandIsAnsweredOnce : Prop :=
  ∀ (s : State) (w : CmdWord) (more : List PortIn), s.cmdReady = true →
    ∃ (n : Nat) (u t : State) (r : RspWord),
      transact w { s with inputs := List.replicate n takePins ++ more } = some (u, r) ∧
      edges (n + 1) { s with inputs := offerPins w :: (List.replicate n takePins ++ more) } =
        some t ∧
      t.arch = u.arch ∧ t.delivered = s.delivered ++ [r] ∧ t.cmdReady = true ∧ t.inputs = more

/-- R43, R45: what a command word does depends on the architectural state and on nothing else: from
two states with the same architectural state it leaves the same architectural state and the same
response. -/
def Obligations.CommandSeesOnlyArchitecturalState : Prop :=
  ∀ (w : CmdWord) (s s' : State), s.arch = s'.arch →
    ∃ (t t' : State) (r : RspWord), transact w s = some (t, r) ∧ transact w s' = some (t', r) ∧
      t.arch = t'.arch

/-- R51, R52, R152: the signal level refines the transaction level, and realises it.
Refines: from every state, over any edges with `rst` at 0 and any other pins, the responses delivered
or in flight are those from before and then, in order, those the transaction level answers to the words
accepted, and the architectural state is the one it leaves. (That this holds also while a command is in
flight is the model's choice, log entry 3.)
Realises: a ready block and a host that offers each word of a list in turn and then keeps `rsp_ready`
at 1 for some number of edges deliver exactly the transaction level's responses and end ready. (That the
block is ready again after finitely many edges after each delivery is the model's choice, log entry 21.) -/
def Obligations.SignalLevelRefinesTransactionLevel : Prop :=
  (∀ (n : Nat) (s t : State), (∀ p ∈ s.inputs.take n, p.rst = false) → edges n s = some t →
    ∃ (u : State) (rs : List RspWord), runWords (acceptedWords n s) s = some (u, rs) ∧
      t.arch = u.arch ∧
      t.delivered ++ t.rsp.toList = s.delivered ++ s.rsp.toList ++ rs) ∧
  ∀ (ws : List CmdWord) (s : State), s.cmdReady = true →
    ∃ (host : List (CmdWord × Nat)) (u t : State) (rs : List RspWord),
      host.map Prod.fst = ws ∧ runWords ws s = some (u, rs) ∧ rs.length = ws.length ∧
      edges (servePins host).length { s with inputs := servePins host } = some t ∧
      t.arch = u.arch ∧ t.delivered = s.delivered ++ rs ∧ t.cmdReady = true ∧ t.inputs = []

/-- The invariant holds at reset (R16, R17, R57, R120). -/
def Obligations.ResetStateIsSafe : Prop := Inv State.reset

/-- R16, R17, R57, R120, R122: every step keeps the invariant, whatever the pins: `BUF` stays in its
canonical form, `BLEN` stays legal, and every response pending or delivered has a status the block
produces and data of at most 8192. -/
def Obligations.EveryStepKeepsTheInvariant : Prop :=
  ∀ s t : State, Inv s → step s = .next t → Inv t

/-! ### PixelGrid -/

/-- R5: `clamp2`. -/
def Obligations.ClampFunctionForcesIntoRange : Prop :=
  ∀ v : Int, (3 < v → clamp2 v = 3) ∧ (v < 0 → clamp2 v = 0) ∧ (0 ≤ v → v ≤ 3 → clamp2 v = v) ∧
    0 ≤ clamp2 v ∧ clamp2 v ≤ 3 ∧ clamp2 (clamp2 v) = clamp2 v

/-- R70: GET answers the cell and changes nothing; outside [0,7] it answers OutOfRange and changes
nothing; its words are those of match 0x10. -/
def Obligations.GetReadsOneCell : Prop :=
  (∀ (s : State) (x y : Fin 8), ∃ t,
    Answers (.get x.val y.val) s 0 (cellAt (tileAt s.ts s.cur) x y).toNat t ∧ t.arch = s.arch) ∧
  (∀ (s : State) (x y : Int), ¬(0 ≤ x ∧ x ≤ 7 ∧ 0 ≤ y ∧ y ≤ 7) → Refuses (.get x y) s 2 0) ∧
  ∀ w : CmdWord, w &&& 0xFFFFFFFFFFFF00000000FFFF = 0x000000000000000000000010 ↔
    decode w = .ok (.get (operandAt w 0) (operandAt w 1))

/-- R72 (with R71): SET writes one cell of the current tile and answers its value; nothing else
changes; with v outside [0,3] or x or y outside [0,7] it answers OutOfRange and writes nothing; its
words are those of match 0x11. -/
def Obligations.SetWritesOneCell : Prop :=
  (∀ (s : State) (x y : Fin 8) (v : Fin 4), ∃ t, Answers (.set x.val y.val v.val) s 0 v.val t ∧
    (∀ (n : BitVec 8) (x' y' : Fin 8), cellAt (tileAt t.ts n) x' y' =
      if n = s.cur ∧ x' = x ∧ y' = y then BitVec.ofNat 2 v.val else cellAt (tileAt s.ts n) x' y') ∧
    t.cur = s.cur ∧ t.blen = s.blen ∧ t.buf = s.buf) ∧
  (∀ (s : State) (x y v : Int), ¬(0 ≤ v ∧ v ≤ 3 ∧ 0 ≤ x ∧ x ≤ 7 ∧ 0 ≤ y ∧ y ≤ 7) →
    Refuses (.set x y v) s 2 0) ∧
  ∀ w : CmdWord, w &&& 0xFFFFFFFF000000000000FFFF = 0x000000000000000000000011 ↔
    decode w = .ok (.set (operandAt w 0) (operandAt w 1) (operandAt w 2))

/-- R74: CLAMP gives every cell of the current tile its `clamp2`, which is its value, changes nothing
in any state, and answers OK with data 0. -/
def Obligations.ClampChangesNothing : Prop :=
  (∀ s : State, ∃ t, Answers .clamp s 0 0 t ∧ t.arch = s.arch ∧
    ∀ x y : Fin 8, ((cellAt (tileAt t.ts t.cur) x y).toNat : Int) =
      clamp2 (cellAt (tileAt s.ts s.cur) x y).toNat) ∧
  ∀ w : CmdWord, w &&& 0xFFFFFFFFFFFFFFFFFFFFFFFF = 0x000000000000000000000012 ↔
    decode w = .ok .clamp

/-- R76: (a) after a successful SET x, y, v, GET x, y answers v; (b) a successful SET changes no cell
other than (CUR, x, y); (c) a failing GET or SET changes nothing; (d) CLAMP after CLAMP equals CLAMP;
(e) every cell is in [0,3]. -/
def Obligations.PixelGridProperties : Prop :=
  (∀ (s t : State) (x y v : Int) (d : Nat), Answers (.set x y v) s 0 d t →
    (∃ u, Answers (.get x y) t 0 v.toNat u) ∧
    ∀ (n : BitVec 8) (x' y' : Fin 8), ¬(n = s.cur ∧ (x'.val : Int) = x ∧ (y'.val : Int) = y) →
      cellAt (tileAt t.ts n) x' y' = cellAt (tileAt s.ts n) x' y') ∧
  (∀ (s t : State) (x y v : Int), (exec (.get x y) s = .next t ∨ exec (.set x y v) s = .next t) →
    t.rsp.map rspStatus ≠ some 0 → t.arch = s.arch) ∧
  (∀ s : State, ∃ t u, exec .clamp s = .next t ∧ exec .clamp t = .next u ∧ u.arch = t.arch) ∧
  ∀ (s : State) (n : BitVec 8) (x y : Fin 8), (cellAt (tileAt s.ts n) x y).toNat ≤ 3

/-! ### TileCodec -/

/-- R7: the sixteen bytes of `encode_tile`. -/
def Obligations.EncodeTileBytesByPlane : Prop :=
  ∀ (g : Grid) (y : Fin 8) (h0 : 2 * y.val < 16) (h1 : 2 * y.val + 1 < 16),
    ((encodeTile g)[2 * y.val]).toNat = planeSum g 0 y ∧
    ((encodeTile g)[2 * y.val + 1]).toNat = planeSum g 1 y

/-- R8: the cells of `decode_tile`. -/
def Obligations.DecodeTileCellsFromPlanes : Prop :=
  ∀ (b : Vector Byte 16) (x y : Fin 8) (h0 : 2 * y.val < 16) (h1 : 2 * y.val + 1 < 16),
    (cellAt (decodeTile b) x y).toNat = pixelFrom b[2 * y.val] b[2 * y.val + 1] x

/-- R9: the two codec functions are inverse to each other. -/
def Obligations.CodecFunctionsAreInverse : Prop :=
  (∀ g : Grid, decodeTile (encodeTile g) = g) ∧
  ∀ b : Vector Byte 16, encodeTile (decodeTile b) = b

/-- R80: ENC writes the encoding of the current tile to `BUF[0..15]`, sets `BLEN` to 16, answers OK
with data 0, and changes nothing else. -/
def Obligations.EncWritesTheEncodedTile : Prop :=
  (∀ s : State, s.buf.wf = true → ∃ t, Answers .enc s 0 0 t ∧
    (∀ y : Fin 8, (t.buf.read (2 * y.val)).toNat = planeSum (tileAt s.ts s.cur) 0 y ∧
      (t.buf.read (2 * y.val + 1)).toNat = planeSum (tileAt s.ts s.cur) 1 y) ∧
    (∀ a, 16 ≤ a → t.buf.read a = s.buf.read a) ∧
    t.blen = 16 ∧ t.ts = s.ts ∧ t.cur = s.cur) ∧
  ∀ w : CmdWord, w &&& 0xFFFFFFFFFFFFFFFFFFFFFFFF = 0x000000000000000000000020 ↔
    decode w = .ok .enc

/-- R81: two states whose ENC leaves the same sixteen bytes are exactly those with equal current
tiles, whatever `BUF`, `BLEN` and the other tiles hold. -/
def Obligations.EncOutputIsTheTileAlone : Prop :=
  ∀ s s' t t' : State, s.buf.wf = true → s'.buf.wf = true → exec .enc s = .next t →
    exec .enc s' = .next t' →
    ((∀ a, a < 16 → t.buf.read a = t'.buf.read a) ↔
      ∀ x y : Fin 8, cellAt (tileAt s.ts s.cur) x y = cellAt (tileAt s'.ts s'.cur) x y)

/-- R82, R83: with `BLEN` 16 DEC replaces all 64 cells of the current tile by the decoding of
`BUF[0..15]` and changes nothing else; with any other `BLEN` it answers FormatError and changes
nothing. -/
def Obligations.DecReplacesTheTileOrNothing : Prop :=
  (∀ s : State, s.blen = 16 → ∃ t, Answers .dec s 0 0 t ∧
    (∀ x y : Fin 8, (cellAt (tileAt t.ts s.cur) x y).toNat =
      pixelFrom (s.buf.read (2 * y.val)) (s.buf.read (2 * y.val + 1)) x) ∧
    (∀ n : BitVec 8, n ≠ s.cur → tileAt t.ts n = tileAt s.ts n) ∧
    t.cur = s.cur ∧ t.blen = s.blen ∧ t.buf = s.buf) ∧
  (∀ s : State, s.blen ≠ 16 → Refuses .dec s 3 0) ∧
  ∀ w : CmdWord, w &&& 0xFFFFFFFFFFFFFFFFFFFFFFFF = 0x000000000000000000000021 ↔
    decode w = .ok .dec

/-- R86: for every state, ENC then DEC leaves every tile as it was; for every state with `BLEN` 16,
DEC then ENC leaves `BUF[0..15]` and `BLEN` unchanged (here: all of `BUF`). Every answer is OK. -/
def Obligations.EncDecRoundTrip : Prop :=
  (∀ s : State, s.buf.wf = true → ∃ t, runInstrs [.enc, .dec] s = some (t, [0, 0]) ∧
    t.ts = s.ts ∧ t.cur = s.cur) ∧
  ∀ s : State, s.buf.wf = true → s.blen = 16 →
    ∃ t, runInstrs [.dec, .enc] s = some (t, [0, 0]) ∧ t.buf = s.buf ∧ t.blen = s.blen

/-! ### LineRasterizer -/

/-- R91, R92: a LINE for which not exactly one of x1 = x2, y1 = y2 holds answers ValidationError with
data 0 and writes nothing, whatever its coordinates and value. -/
def Obligations.LineNotAxisAlignedIsRefused : Prop :=
  ∀ (s : State) (x1 y1 x2 y2 v : Int), ¬Xor (x1 = x2) (y1 = y2) →
    Refuses (.line x1 y1 x2 y2 v) s 4 0

/-- R93: the order in which the endpoints are given changes nothing: not the cells, not the answer,
not the point at which an error stops the line. It says nothing of the time the two commands take. -/
def Obligations.LineEndpointsCommute : Prop :=
  ∀ (s : State) (x1 y1 x2 y2 v : Int),
    ∃ t u, exec (.line x1 y1 x2 y2 v) s = .next t ∧ exec (.line x2 y2 x1 y1 v) s = .next u ∧
      t.arch = u.arch ∧ t.rsp = u.rsp ∧ t.inputs = u.inputs ∧ t.delivered = u.delivered

/-- R90, by R95's closed form: LINE, vertical and horizontal, for every value, fixed coordinate and pair
of different moving coordinates: cells written, status and count, and what stays unchanged; a LINE that
is not axis-aligned answers ValidationError and changes nothing. LINE's words are those of match
0x30. -/
def Obligations.LineMeetsItsClosedForm : Prop :=
  (∀ (s : State) (f m1 m2 v : Int), m1 ≠ m2 →
    LineTable (.line f m1 f m2 v) true f (min m1 m2) (max m1 m2) v s ∧
    LineTable (.line m1 f m2 f v) false f (min m1 m2) (max m1 m2) v s) ∧
  (∀ (s : State) (x1 y1 x2 y2 v : Int), ¬Xor (x1 = x2) (y1 = y2) →
    Refuses (.line x1 y1 x2 y2 v) s 4 0) ∧
  ∀ w : CmdWord, w &&& 0x00000000000000000000FFFF = 0x000000000000000000000030 ↔
    decode w = .ok (.line (operandAt w 0) (operandAt w 1) (operandAt w 2) (operandAt w 3)
      (operandAt w 4))

/-! ### TileStore -/

/-- R100: SELECT sets `CUR`, answers it, and changes nothing else; outside [0,255] it answers
OutOfRange and `CUR` keeps its value. -/
def Obligations.SelectSetsTheCurrentTile : Prop :=
  (∀ (s : State) (n : BitVec 8), ∃ t, Answers (.select n.toNat) s 0 n.toNat t ∧ t.cur = n ∧
    t.ts = s.ts ∧ t.blen = s.blen ∧ t.buf = s.buf) ∧
  (∀ (s : State) (n : Int), ¬(0 ≤ n ∧ n ≤ 255) → Refuses (.select n) s 2 0) ∧
  ∀ w : CmdWord, w &&& 0xFFFFFFFFFFFFFFFF0000FFFF = 0x000000000000000000000040 ↔
    decode w = .ok (.select (operandAt w 0))

/-- R101: RDCUR answers `CUR` and changes nothing. -/
def Obligations.RdcurReadsTheCurrentTile : Prop :=
  (∀ s : State, ∃ t, Answers .rdcur s 0 s.cur.toNat t ∧ t.arch = s.arch) ∧
  ∀ w : CmdWord, w &&& 0xFFFFFFFFFFFFFFFFFFFFFFFF = 0x000000000000000000000041 ↔
    decode w = .ok .rdcur

/-- R102, R36: SER writes the encoding of tile t to `BUF[16*t .. 16*t + 15]` for every t, sets `BLEN`
to 4096, answers OK with data 0, and changes nothing else. -/
def Obligations.SerWritesTheStoreImage : Prop :=
  (∀ s : State, s.buf.wf = true → ∃ t, Answers .ser s 0 0 t ∧
    (∀ (n : BitVec 8) (y : Fin 8),
      (t.buf.read (16 * n.toNat + 2 * y.val)).toNat = planeSum (tileAt s.ts n) 0 y ∧
      (t.buf.read (16 * n.toNat + 2 * y.val + 1)).toNat = planeSum (tileAt s.ts n) 1 y) ∧
    (∀ a, 4096 ≤ a → t.buf.read a = s.buf.read a) ∧
    t.blen = 4096 ∧ t.ts = s.ts ∧ t.cur = s.cur) ∧
  ∀ w : CmdWord, w &&& 0xFFFFFFFFFFFFFFFFFFFFFFFF = 0x000000000000000000000042 ↔
    decode w = .ok .ser

/-- R103: after SER, `BUF[0..15]` holds the encoding of tile 0, `BLEN` is 4096, and a DEC issued next
answers FormatError and changes nothing. -/
def Obligations.DecRightAfterSerFails : Prop :=
  ∀ s t : State, s.buf.wf = true → exec .ser s = .next t →
    (∀ y : Fin 8, (t.buf.read (2 * y.val)).toNat = planeSum (tileAt s.ts 0) 0 y ∧
      (t.buf.read (2 * y.val + 1)).toNat = planeSum (tileAt s.ts 0) 1 y) ∧
    t.blen = 4096 ∧ Refuses .dec t 3 0

/-- R104, R105: with `BLEN` 4096 DESER replaces every cell of every tile by the decoding of
`BUF[0..4095]` and changes nothing else; with any other `BLEN` it answers FormatError and changes
nothing. -/
def Obligations.DeserReplacesTheStoreOrNothing : Prop :=
  (∀ s : State, s.blen = 4096 → ∃ t, Answers .deser s 0 0 t ∧
    (∀ (n : BitVec 8) (x y : Fin 8), (cellAt (tileAt t.ts n) x y).toNat =
      pixelFrom (s.buf.read (16 * n.toNat + 2 * y.val)) (s.buf.read (16 * n.toNat + 2 * y.val + 1))
        x) ∧
    t.cur = s.cur ∧ t.blen = s.blen ∧ t.buf = s.buf) ∧
  (∀ s : State, s.blen ≠ 4096 → Refuses .deser s 3 0) ∧
  ∀ w : CmdWord, w &&& 0xFFFFFFFFFFFFFFFFFFFFFFFF = 0x000000000000000000000043 ↔
    decode w = .ok .deser

/-- R106: (b) SER then DESER leaves `TS` unchanged; (c) with `BLEN` 4096, DESER then SER leaves `BUF`
unchanged; (d) SER's output for tile n is what SELECT n; ENC puts in `BUF[0..15]`. ((a), 256 tiles,
holds by the type of `TS`.) -/
def Obligations.SerDeserRoundTrip : Prop :=
  (∀ s : State, s.buf.wf = true → ∃ t, runInstrs [.ser, .deser] s = some (t, [0, 0]) ∧
    t.ts = s.ts ∧ t.cur = s.cur) ∧
  (∀ s : State, s.buf.wf = true → s.blen = 4096 →
    ∃ t, runInstrs [.deser, .ser] s = some (t, [0, 0]) ∧ t.buf = s.buf ∧ t.blen = s.blen) ∧
  ∀ (s t u : State) (n : BitVec 8) (rs : List RspWord), s.buf.wf = true → exec .ser s = .next t →
    runInstrs [.select n.toNat, .enc] s = some (u, rs) →
    ∀ i, i < 16 → t.buf.read (16 * n.toNat + i) = u.buf.read i

/-! ### Buffer access -/

/-- R110: BWR writes the one byte, answers OK with data 0, and changes nothing else; with an address
outside [0,8191] or a value outside [0,255] it answers OutOfRange and writes nothing. -/
def Obligations.BwrWritesOneByte : Prop :=
  (∀ (s : State) (a b : Int), s.buf.wf = true → 0 ≤ a → a ≤ 8191 → 0 ≤ b → b ≤ 255 →
    ∃ t, Answers (.bwr a b) s 0 0 t ∧
      (∀ c, t.buf.read c = if c = addrOf a then BitVec.ofInt 8 b else s.buf.read c) ∧
      t.blen = s.blen ∧ t.ts = s.ts ∧ t.cur = s.cur) ∧
  (∀ (s : State) (a b : Int), ¬(0 ≤ a ∧ a ≤ 8191 ∧ 0 ≤ b ∧ b ≤ 255) → Refuses (.bwr a b) s 2 0) ∧
  ∀ w : CmdWord, w &&& 0xFFFFFFFFFFFF00000000FFFF = 0x000000000000000000000050 ↔
    decode w = .ok (.bwr (operandAt w 0) (operandAt w 1))

/-- R111: BRD answers the byte, whatever `BLEN` holds, and changes nothing; outside [0,8191] it
answers OutOfRange. -/
def Obligations.BrdReadsOneByte : Prop :=
  (∀ (s : State) (a : Nat), a < 8192 →
    ∃ t, Answers (.brd a) s 0 (s.buf.read a).toNat t ∧ t.arch = s.arch) ∧
  (∀ (s : State) (a : Int), ¬(0 ≤ a ∧ a ≤ 8191) → Refuses (.brd a) s 2 0) ∧
  ∀ w : CmdWord, w &&& 0xFFFFFFFFFFFFFFFF0000FFFF = 0x000000000000000000000051 ↔
    decode w = .ok (.brd (operandAt w 0))

/-- R112: SETLEN sets `BLEN`, answers it, and changes nothing else; outside [0,8192] it answers
OutOfRange and `BLEN` keeps its value. -/
def Obligations.SetlenSetsTheLength : Prop :=
  (∀ (s : State) (n : Nat), n ≤ 8192 → ∃ t, Answers (.setlen n) s 0 n t ∧ t.blen.toNat = n ∧
    t.buf = s.buf ∧ t.ts = s.ts ∧ t.cur = s.cur) ∧
  (∀ (s : State) (n : Int), ¬(0 ≤ n ∧ n ≤ 8192) → Refuses (.setlen n) s 2 0) ∧
  ∀ w : CmdWord, w &&& 0xFFFFFFFFFFFFFFFF0000FFFF = 0x000000000000000000000052 ↔
    decode w = .ok (.setlen (operandAt w 0))

/-- R113: RDLEN answers `BLEN` and changes nothing. -/
def Obligations.RdlenReadsTheLength : Prop :=
  (∀ s : State, ∃ t, Answers .rdlen s 0 s.blen.toNat t ∧ t.arch = s.arch) ∧
  ∀ w : CmdWord, w &&& 0xFFFFFFFFFFFFFFFFFFFFFFFF = 0x000000000000000000000053 ↔
    decode w = .ok .rdlen

/-! ### Frames over all commands -/

/-- R31, R37: the frame of the byte space. When a command answers a next state, every byte it does
not store to (ENC 0 to 15, SER 0 to 4095, BWR its address; no other command stores) reads as
before. -/
def Obligations.UnstoredBytesReadAsBefore : Prop :=
  ∀ (i : Instr) (s t : State), s.buf.wf = true → exec i s = .next t →
    ∀ a, ¬storesByte i a → t.buf.read a = s.buf.read a

/-- R14, R31: the frame of the pixel space. When a command answers a next state, every cell it may
not write (SET its cell, LINE the points between its endpoints, DEC the current tile, DESER all) holds
what it held. -/
def Obligations.UnwrittenCellsHoldTheirValue : Prop :=
  ∀ (i : Instr) (s t : State), exec i s = .next t →
    ∀ (n : BitVec 8) (x y : Fin 8), ¬mayWriteCell i s n x y →
      cellAt (tileAt t.ts n) x y = cellAt (tileAt s.ts n) x y

/-- R15, R17, R14: the frame of the registers. `CUR` is written by SELECT alone and `BLEN` by SETLEN,
ENC and SER alone; the host's side of the ports is never changed by a command. -/
def Obligations.RegistersKeepTheirValue : Prop :=
  ∀ (i : Instr) (s t : State), exec i s = .next t →
    ((∀ n, i ≠ .select n) → t.cur = s.cur) ∧
    ((∀ n, i ≠ .setlen n) → i ≠ .enc → i ≠ .ser → t.blen = s.blen) ∧
    t.inputs = s.inputs ∧ t.delivered = s.delivered

/-- R42: reading (GET, BRD, RDCUR, RDLEN) changes nothing; and any command repeated with the same
operands with no command in between leaves the state as after the first and answers the same word. -/
def Obligations.RepeatingACommandChangesNothingMore : Prop :=
  (∀ (i : Instr) (s t : State), onlyReads i → exec i s = .next t → t.arch = s.arch) ∧
  ∀ (i : Instr) (s t u : State), s.buf.wf = true → exec i s = .next t → exec i t = .next u →
    u.arch = t.arch ∧ u.rsp = t.rsp

/-! ### Errors -/

/-- R120, R122: the status of every response is 0, 2, 3, 4 or 5; TypeArgument, status 1, is never
raised, and no error keeps the block from answering. -/
def Obligations.OnlyTheListedStatusesOccur : Prop :=
  ∀ (w : CmdWord) (s t : State), execWord w s = .next t →
    ∃ r, t.rsp = some r ∧ (rspStatus r = 0 ∨ rspStatus r = 2 ∨ rspStatus r = 3 ∨ rspStatus r = 4 ∨
      rspStatus r = 5)

/-- R121: OutOfRange, status 2, is answered exactly in the cases of the table, with data 0, but for
LINE whose data is the number of points written before the failing one (0 when the value, the fixed
coordinate or the smaller moving coordinate is out of range, else 8 less the smaller moving
coordinate). -/
def Obligations.OutOfRangeExactlyAsListed : Prop :=
  ∀ (i : Instr) (s t : State) (r : RspWord), exec i s = .next t → t.rsp = some r →
    (rspStatus r = 2 ↔ outOfRangeCase i) ∧
    (rspStatus r = 2 → (∀ x1 y1 x2 y2 v, i ≠ .line x1 y1 x2 y2 v) → rspData r = 0) ∧
    ∀ x1 y1 x2 y2 v, i = .line x1 y1 x2 y2 v → rspStatus r = 2 →
      (rspData r).toNat =
        (if v < 0 ∨ 3 < v ∨ min x1 x2 < 0 ∨ 7 < min x1 x2 ∨ min y1 y2 < 0 ∨ 7 < min y1 y2 then 0
         else if x1 = x2 then (8 - min y1 y2).toNat else (8 - min x1 x2).toNat)

/-- R123: FormatError, status 3, is answered exactly by DEC when `BLEN` is not 16 and by DESER when
`BLEN` is not 4096, with data 0. -/
def Obligations.FormatErrorExactlyAsListed : Prop :=
  ∀ (i : Instr) (s t : State) (r : RspWord), exec i s = .next t → t.rsp = some r →
    (rspStatus r = 3 ↔ (i = .dec ∧ s.blen ≠ 16) ∨ (i = .deser ∧ s.blen ≠ 4096)) ∧
    (rspStatus r = 3 → rspData r = 0)

/-- R124: ValidationError, status 4, is answered exactly by LINE when it is not true that exactly one
of x1 = x2, y1 = y2 holds, with data 0 and nothing written. -/
def Obligations.ValidationErrorExactlyAsListed : Prop :=
  ∀ (i : Instr) (s t : State) (r : RspWord), exec i s = .next t → t.rsp = some r →
    (rspStatus r = 4 ↔ ∃ x1 y1 x2 y2 v, i = .line x1 y1 x2 y2 v ∧ ¬Xor (x1 = x2) (y1 = y2)) ∧
    (rspStatus r = 4 → rspData r = 0 ∧ t.arch = s.arch)

/-- R125: IllegalCommand, status 5, is answered exactly when the word satisfies no (match, mask) pair
of R56, with data 0. -/
def Obligations.IllegalCommandExactlyAsListed : Prop :=
  ∀ (w : CmdWord) (s t : State) (r : RspWord), execWord w s = .next t → t.rsp = some r →
    (rspStatus r = 5 ↔ ¬∃ o, w &&& maskOf o = matchOf o) ∧ (rspStatus r = 5 → rspData r = 0)

/-- R128: a command word that answers an error status has changed no architectural state, with one
exception: LINE answering OutOfRange. -/
def Obligations.FailingCommandsChangeNothing : Prop :=
  ∀ (w : CmdWord) (s t : State) (r : RspWord), execWord w s = .next t → t.rsp = some r →
    rspStatus r ≠ 0 →
    t.arch = s.arch ∨ ((∃ x1 y1 x2 y2 v, decode w = .ok (.line x1 y1 x2 y2 v)) ∧ rspStatus r = 2)

/-! ### After reset, and the pseudo-instructions -/

/-- R144: from the reset state GET answers 0 for every cell, ENC and SER write sixteen and 4096 bytes
00, DEC and DESER answer FormatError, RDCUR and RDLEN answer 0. -/
def Obligations.CommandsRightAfterReset : Prop :=
  (∀ x y : Fin 8, ∃ t, Answers (.get x.val y.val) State.reset 0 0 t) ∧
  (∃ t, Answers .enc State.reset 0 0 t ∧ ∀ a, a < 16 → t.buf.read a = 0) ∧
  (∃ t, Answers .ser State.reset 0 0 t ∧ ∀ a, a < 4096 → t.buf.read a = 0) ∧
  Refuses .dec State.reset 3 0 ∧ Refuses .deser State.reset 3 0 ∧
  (∃ t, Answers .rdcur State.reset 0 0 t) ∧ ∃ t, Answers .rdlen State.reset 0 0 t

/-- R64: PUTTILE of any sixteen bytes answers OK throughout and makes the current tile their decoding;
GETTILE then answers exactly those bytes. -/
def Obligations.GettileReturnsWhatPuttilePut : Prop :=
  ∀ (s : State) (b : Vector Byte 16), s.buf.wf = true →
    ∃ (t u : State) (rs : List RspWord),
      runInstrs (expandPseudo (.puttile (b.map fun c => (c.toNat : Int)))) s = some (t, rs) ∧
      (∀ r ∈ rs, rspStatus r = 0) ∧ tileAt t.ts t.cur = decodeTile b ∧ t.cur = s.cur ∧
      (∀ n : BitVec 8, n ≠ s.cur → tileAt t.ts n = tileAt s.ts n) ∧
      runInstrs (expandPseudo .gettile) t =
        some (u, 0 :: b.toList.map fun c => BitVec.ofNat 16 c.toNat ++ (0 : BitVec 8))

/-- R64, R46: SAVE answers OK and then 4096 bytes, each with status OK, and leaves `TS`; LOAD of these
bytes, from any state of the block, answers OK throughout and restores every tile, leaving `CUR`. -/
def Obligations.LoadRestoresWhatSaveReturned : Prop :=
  ∀ (s s' : State), s.buf.wf = true → s'.buf.wf = true →
    ∃ (t : State) (rs : List RspWord), runInstrs (expandPseudo .save) s = some (t, 0 :: rs) ∧
      rs.length = 4096 ∧ (∀ r ∈ rs, rspStatus r = 0 ∧ (rspData r).toNat ≤ 255) ∧
      t.ts = s.ts ∧ t.cur = s.cur ∧
      ∃ (u : State) (qs : List RspWord),
        runInstrs (expandPseudo (.load (rs.map fun r => ((rspData r).toNat : Int)))) s' =
          some (u, qs) ∧ qs.length = 4098 ∧ (∀ q ∈ qs, rspStatus q = 0) ∧
        u.ts = s.ts ∧ u.cur = s'.cur
end

