-- ==== Sys2Proof/Laws/State.lean ====
section
/-! SUPPORT. One lemma per field of State per update, so that no later proof unfolds a record
update. -/

namespace Sys2Proof.Machine

open Sys2Proof

variable (s : State)

/-- Raising an error is responding with it (R127). -/
@[simp] theorem raise_eq_respond (e : Status) (d : Nat) : s.raise e d = s.respond e d := rfl

/-- `withFetchWord` offers the word to a ready block. -/
@[simp] theorem withFetchWord_eq_offered (nbits w : Nat) :
    s.withFetchWord nbits w = s.offered nbits w := rfl

/-- Two states have the same architectural state when the four pieces agree (R52). -/
theorem arch_ext {s t : State} (hts : s.ts = t.ts) (hcur : s.cur = t.cur) (hblen : s.blen = t.blen)
    (hbuf : s.buf = t.buf) : s.arch = t.arch := by
  simp only [State.arch, hts, hcur, hblen, hbuf]

@[simp] theorem arch_ts : s.arch.ts = s.ts := rfl
@[simp] theorem arch_cur : s.arch.cur = s.cur := rfl
@[simp] theorem arch_blen : s.arch.blen = s.blen := rfl
@[simp] theorem arch_buf : s.arch.buf = s.buf := rfl
@[simp] theorem respond_arch (st : Status) (d : Nat) : (s.respond st d).arch = s.arch := rfl
@[simp] theorem popPins_arch : s.popPins.arch = s.arch := rfl
@[simp] theorem tick_arch : s.tick.arch = s.arch := rfl
@[simp] theorem deliver_arch (r : RspWord) : (s.deliver r).arch = s.arch := rfl
@[simp] theorem hardReset_arch : s.hardReset.arch = State.reset.arch := rfl
@[simp] theorem offered_arch (nbits w : Nat) : (s.offered nbits w).arch = s.arch := rfl

@[simp] theorem setGrid_ts (g : Grid) : (s.setGrid g).ts = withTile s.ts s.cur g := rfl
@[simp] theorem setGrid_cur (g : Grid) : (s.setGrid g).cur = s.cur := rfl
@[simp] theorem setGrid_blen (g : Grid) : (s.setGrid g).blen = s.blen := rfl
@[simp] theorem setGrid_buf (g : Grid) : (s.setGrid g).buf = s.buf := rfl
@[simp] theorem setGrid_rsp (g : Grid) : (s.setGrid g).rsp = s.rsp := rfl
@[simp] theorem setGrid_wait (g : Grid) : (s.setGrid g).wait = s.wait := rfl
@[simp] theorem setGrid_draws (g : Grid) : (s.setGrid g).draws = s.draws := rfl
@[simp] theorem setGrid_inputs (g : Grid) : (s.setGrid g).inputs = s.inputs := rfl
@[simp] theorem setGrid_delivered (g : Grid) : (s.setGrid g).delivered = s.delivered := rfl

@[simp] theorem setStore_ts (ts : Store) : (s.setStore ts).ts = ts := rfl
@[simp] theorem setStore_cur (ts : Store) : (s.setStore ts).cur = s.cur := rfl
@[simp] theorem setStore_blen (ts : Store) : (s.setStore ts).blen = s.blen := rfl
@[simp] theorem setStore_buf (ts : Store) : (s.setStore ts).buf = s.buf := rfl
@[simp] theorem setStore_rsp (ts : Store) : (s.setStore ts).rsp = s.rsp := rfl
@[simp] theorem setStore_wait (ts : Store) : (s.setStore ts).wait = s.wait := rfl
@[simp] theorem setStore_draws (ts : Store) : (s.setStore ts).draws = s.draws := rfl
@[simp] theorem setStore_inputs (ts : Store) : (s.setStore ts).inputs = s.inputs := rfl
@[simp] theorem setStore_delivered (ts : Store) : (s.setStore ts).delivered = s.delivered := rfl

@[simp] theorem setCur_ts (t : BitVec 8) : (s.setCur t).ts = s.ts := rfl
@[simp] theorem setCur_cur (t : BitVec 8) : (s.setCur t).cur = t := rfl
@[simp] theorem setCur_blen (t : BitVec 8) : (s.setCur t).blen = s.blen := rfl
@[simp] theorem setCur_buf (t : BitVec 8) : (s.setCur t).buf = s.buf := rfl
@[simp] theorem setCur_rsp (t : BitVec 8) : (s.setCur t).rsp = s.rsp := rfl
@[simp] theorem setCur_wait (t : BitVec 8) : (s.setCur t).wait = s.wait := rfl
@[simp] theorem setCur_draws (t : BitVec 8) : (s.setCur t).draws = s.draws := rfl
@[simp] theorem setCur_inputs (t : BitVec 8) : (s.setCur t).inputs = s.inputs := rfl
@[simp] theorem setCur_delivered (t : BitVec 8) : (s.setCur t).delivered = s.delivered := rfl

@[simp] theorem setBlen_ts (n : BitVec 14) : (s.setBlen n).ts = s.ts := rfl
@[simp] theorem setBlen_cur (n : BitVec 14) : (s.setBlen n).cur = s.cur := rfl
@[simp] theorem setBlen_blen (n : BitVec 14) : (s.setBlen n).blen = n := rfl
@[simp] theorem setBlen_buf (n : BitVec 14) : (s.setBlen n).buf = s.buf := rfl
@[simp] theorem setBlen_rsp (n : BitVec 14) : (s.setBlen n).rsp = s.rsp := rfl
@[simp] theorem setBlen_wait (n : BitVec 14) : (s.setBlen n).wait = s.wait := rfl
@[simp] theorem setBlen_draws (n : BitVec 14) : (s.setBlen n).draws = s.draws := rfl
@[simp] theorem setBlen_inputs (n : BitVec 14) : (s.setBlen n).inputs = s.inputs := rfl
@[simp] theorem setBlen_delivered (n : BitVec 14) : (s.setBlen n).delivered = s.delivered := rfl

@[simp] theorem writeByte_ts (a : Nat) (b : Byte) : (s.writeByte a b).ts = s.ts := rfl
@[simp] theorem writeByte_cur (a : Nat) (b : Byte) : (s.writeByte a b).cur = s.cur := rfl
@[simp] theorem writeByte_blen (a : Nat) (b : Byte) : (s.writeByte a b).blen = s.blen := rfl
@[simp] theorem writeByte_buf (a : Nat) (b : Byte) : (s.writeByte a b).buf = s.buf.write a b := rfl
@[simp] theorem writeByte_rsp (a : Nat) (b : Byte) : (s.writeByte a b).rsp = s.rsp := rfl
@[simp] theorem writeByte_wait (a : Nat) (b : Byte) : (s.writeByte a b).wait = s.wait := rfl
@[simp] theorem writeByte_draws (a : Nat) (b : Byte) : (s.writeByte a b).draws = s.draws := rfl
@[simp] theorem writeByte_inputs (a : Nat) (b : Byte) : (s.writeByte a b).inputs = s.inputs := rfl
@[simp] theorem writeByte_delivered (a : Nat) (b : Byte) :
    (s.writeByte a b).delivered = s.delivered := rfl

@[simp] theorem writeBytes_ts (a : Nat) (bs : List Byte) : (s.writeBytes a bs).ts = s.ts := rfl
@[simp] theorem writeBytes_cur (a : Nat) (bs : List Byte) : (s.writeBytes a bs).cur = s.cur := rfl
@[simp] theorem writeBytes_blen (a : Nat) (bs : List Byte) :
    (s.writeBytes a bs).blen = s.blen := rfl
@[simp] theorem writeBytes_buf (a : Nat) (bs : List Byte) :
    (s.writeBytes a bs).buf = s.buf.writeList a bs := rfl
@[simp] theorem writeBytes_rsp (a : Nat) (bs : List Byte) : (s.writeBytes a bs).rsp = s.rsp := rfl
@[simp] theorem writeBytes_wait (a : Nat) (bs : List Byte) :
    (s.writeBytes a bs).wait = s.wait := rfl
@[simp] theorem writeBytes_draws (a : Nat) (bs : List Byte) :
    (s.writeBytes a bs).draws = s.draws := rfl
@[simp] theorem writeBytes_inputs (a : Nat) (bs : List Byte) :
    (s.writeBytes a bs).inputs = s.inputs := rfl
@[simp] theorem writeBytes_delivered (a : Nat) (bs : List Byte) :
    (s.writeBytes a bs).delivered = s.delivered := rfl

@[simp] theorem respond_ts (st : Status) (d : Nat) : (s.respond st d).ts = s.ts := rfl
@[simp] theorem respond_cur (st : Status) (d : Nat) : (s.respond st d).cur = s.cur := rfl
@[simp] theorem respond_blen (st : Status) (d : Nat) : (s.respond st d).blen = s.blen := rfl
@[simp] theorem respond_buf (st : Status) (d : Nat) : (s.respond st d).buf = s.buf := rfl
@[simp] theorem respond_rsp (st : Status) (d : Nat) :
    (s.respond st d).rsp = some (responseWord st d) := rfl
@[simp] theorem respond_wait (st : Status) (d : Nat) :
    (s.respond st d).wait = Config.delay s.draws := rfl
@[simp] theorem respond_draws (st : Status) (d : Nat) : (s.respond st d).draws = s.draws + 1 := rfl
@[simp] theorem respond_inputs (st : Status) (d : Nat) : (s.respond st d).inputs = s.inputs := rfl
@[simp] theorem respond_delivered (st : Status) (d : Nat) :
    (s.respond st d).delivered = s.delivered := rfl

@[simp] theorem popPins_ts : s.popPins.ts = s.ts := rfl
@[simp] theorem popPins_cur : s.popPins.cur = s.cur := rfl
@[simp] theorem popPins_blen : s.popPins.blen = s.blen := rfl
@[simp] theorem popPins_buf : s.popPins.buf = s.buf := rfl
@[simp] theorem popPins_rsp : s.popPins.rsp = s.rsp := rfl
@[simp] theorem popPins_wait : s.popPins.wait = s.wait := rfl
@[simp] theorem popPins_draws : s.popPins.draws = s.draws := rfl
@[simp] theorem popPins_inputs : s.popPins.inputs = s.inputs.tail := rfl
@[simp] theorem popPins_delivered : s.popPins.delivered = s.delivered := rfl

@[simp] theorem tick_ts : s.tick.ts = s.ts := rfl
@[simp] theorem tick_cur : s.tick.cur = s.cur := rfl
@[simp] theorem tick_blen : s.tick.blen = s.blen := rfl
@[simp] theorem tick_buf : s.tick.buf = s.buf := rfl
@[simp] theorem tick_rsp : s.tick.rsp = s.rsp := rfl
@[simp] theorem tick_wait : s.tick.wait = s.wait - 1 := rfl
@[simp] theorem tick_draws : s.tick.draws = s.draws := rfl
@[simp] theorem tick_inputs : s.tick.inputs = s.inputs := rfl
@[simp] theorem tick_delivered : s.tick.delivered = s.delivered := rfl

@[simp] theorem deliver_ts (r : RspWord) : (s.deliver r).ts = s.ts := rfl
@[simp] theorem deliver_cur (r : RspWord) : (s.deliver r).cur = s.cur := rfl
@[simp] theorem deliver_blen (r : RspWord) : (s.deliver r).blen = s.blen := rfl
@[simp] theorem deliver_buf (r : RspWord) : (s.deliver r).buf = s.buf := rfl
@[simp] theorem deliver_rsp (r : RspWord) : (s.deliver r).rsp = none := rfl
@[simp] theorem deliver_wait (r : RspWord) : (s.deliver r).wait = Config.delay s.draws := rfl
@[simp] theorem deliver_draws (r : RspWord) : (s.deliver r).draws = s.draws + 1 := rfl
@[simp] theorem deliver_inputs (r : RspWord) : (s.deliver r).inputs = s.inputs := rfl
@[simp] theorem deliver_delivered (r : RspWord) :
    (s.deliver r).delivered = s.delivered ++ [r] := rfl

@[simp] theorem hardReset_ts : s.hardReset.ts = State.reset.ts := rfl
@[simp] theorem hardReset_cur : s.hardReset.cur = 0 := rfl
@[simp] theorem hardReset_blen : s.hardReset.blen = 0 := rfl
@[simp] theorem hardReset_buf : s.hardReset.buf = [] := rfl
@[simp] theorem hardReset_rsp : s.hardReset.rsp = none := rfl
@[simp] theorem hardReset_wait : s.hardReset.wait = Config.delay s.draws := rfl
@[simp] theorem hardReset_draws : s.hardReset.draws = s.draws + 1 := rfl
@[simp] theorem hardReset_inputs : s.hardReset.inputs = s.inputs := rfl
@[simp] theorem hardReset_delivered : s.hardReset.delivered = s.delivered := rfl

@[simp] theorem offered_ts (nbits w : Nat) : (s.offered nbits w).ts = s.ts := rfl
@[simp] theorem offered_cur (nbits w : Nat) : (s.offered nbits w).cur = s.cur := rfl
@[simp] theorem offered_blen (nbits w : Nat) : (s.offered nbits w).blen = s.blen := rfl
@[simp] theorem offered_buf (nbits w : Nat) : (s.offered nbits w).buf = s.buf := rfl
@[simp] theorem offered_rsp (nbits w : Nat) : (s.offered nbits w).rsp = none := rfl
@[simp] theorem offered_wait (nbits w : Nat) : (s.offered nbits w).wait = 0 := rfl
@[simp] theorem offered_draws (nbits w : Nat) : (s.offered nbits w).draws = s.draws := rfl
@[simp] theorem offered_inputs (nbits w : Nat) :
    (s.offered nbits w).inputs = offerPins (BitVec.ofNat 96 (w % 2 ^ nbits)) :: s.inputs := rfl
@[simp] theorem offered_delivered (nbits w : Nat) :
    (s.offered nbits w).delivered = s.delivered := rfl

end Sys2Proof.Machine
end

