-- ==== Sys2Proof/Laws/Grid.lean ====
section
/-! SUPPORT. Laws of the pixel space: reading a cell or a tile after a write, and the clamp passes
are the identity (spec 10_state.md R12, R13; 40_pixelgrid.md R74, R75). -/

namespace Sys2Proof.Machine

open Sys2Proof

@[simp] theorem tabulate_getElem {α : Type} {n : Nat} (f : Fin n → α) (i : Nat) (h : i < n) :
    (tabulate f)[i] = f ⟨i, h⟩ := by
  simp [tabulate]

@[simp] theorem mapEntries_getElem {α β : Type} {n : Nat} (f : α → β) (v : Vector α n) (i : Nat)
    (h : i < n) : (mapEntries f v)[i] = f v[i] := by
  simp [mapEntries]

/-- `clamp2` changes no value in [0,3] (R5). -/
theorem clamp2_of_inRange {v : Int} (h0 : 0 ≤ v) (h3 : v ≤ 3) : clamp2 v = v := by
  unfold clamp2
  split
  · omega
  · split
    · omega
    · rfl

@[simp] theorem clampCell_eq (p : Pixel) : clampCell p = p := by
  revert p
  decide

/-- The clamp pass is the identity on a grid (R12, R75). -/
@[simp] theorem clampGrid_eq (g : Grid) : clampGrid g = g := by
  apply Vector.ext
  intro x hx
  apply Vector.ext
  intro y hy
  simp [clampGrid]

/-- The clamp pass is the identity on the store (R12, R75). -/
@[simp] theorem clampStore_eq (ts : Store) : clampStore ts = ts := by
  apply Vector.ext
  intro t ht
  simp [clampStore]

/-- Two grids with the same cells are equal. -/
theorem grid_ext {g h : Grid} (same : ∀ x y : Fin 8, cellAt g x y = cellAt h x y) : g = h := by
  apply Vector.ext
  intro x hx
  apply Vector.ext
  intro y hy
  exact same ⟨x, hx⟩ ⟨y, hy⟩

/-- Reading a cell after writing one. -/
theorem cellAt_withCell (g : Grid) (x y x' y' : Fin 8) (v : Pixel) :
    cellAt (withCell g x y v) x' y' = if x' = x ∧ y' = y then v else cellAt g x' y' := by
  unfold cellAt withCell
  by_cases hx : x' = x
  · subst hx
    by_cases hy : y' = y
    · subst hy
      simp
    · have : (y : Nat) ≠ y' := fun e => hy (Fin.ext e.symm)
      simp [hy, this]
  · have : (x : Nat) ≠ x' := fun e => hx (Fin.ext e.symm)
    simp [hx, this]

/-- Reading a tile after replacing one: two tile indices never name the same cells (R13). -/
theorem tileAt_withTile (ts : Store) (t t' : BitVec 8) (g : Grid) :
    tileAt (withTile ts t g) t' = if t' = t then g else tileAt ts t' := by
  unfold tileAt withTile
  by_cases h : t' = t
  · subst h
    simp
  · have : t.toNat ≠ t'.toNat := fun e => h (BitVec.eq_of_toNat_eq e.symm)
    simp [h, this]

/-- Two stores with the same tiles are equal. -/
theorem store_ext {ts us : Store} (same : ∀ t : BitVec 8, tileAt ts t = tileAt us t) : ts = us := by
  apply Vector.ext
  intro t ht
  have e : (BitVec.ofNat 8 t).toNat = t := by simp; omega
  have := same (BitVec.ofNat 8 t)
  simpa [tileAt, e] using this

@[simp] theorem withTile_tileAt (ts : Store) (t : BitVec 8) : withTile ts t (tileAt ts t) = ts := by
  apply store_ext
  intro t'
  rw [tileAt_withTile]
  split
  · next h => rw [h]
  · rfl

@[simp] theorem withTile_withTile (ts : Store) (t : BitVec 8) (g h : Grid) :
    withTile (withTile ts t g) t h = withTile ts t h := by
  apply store_ext
  intro t'
  simp only [tileAt_withTile]
  split <;> rfl

@[simp] theorem tileAt_withTile_self (ts : Store) (t : BitVec 8) (g : Grid) :
    tileAt (withTile ts t g) t = g := by
  simp [tileAt_withTile]

@[simp] theorem setGrid_grid (g : Grid) (s : State) : (s.setGrid g).grid = g := by
  simp [State.grid]

@[simp] theorem respond_grid (st : Status) (d : Nat) (s : State) :
    (s.respond st d).grid = s.grid := rfl

@[simp] theorem writeByte_grid (a : Nat) (b : Byte) (s : State) :
    (s.writeByte a b).grid = s.grid := rfl

@[simp] theorem writeBytes_grid (a : Nat) (bs : List Byte) (s : State) :
    (s.writeBytes a bs).grid = s.grid := rfl

@[simp] theorem setBlen_grid (n : BitVec 14) (s : State) : (s.setBlen n).grid = s.grid := rfl

@[simp] theorem setGrid_same (s : State) : s.setGrid s.grid = s := by
  simp [State.setGrid, State.grid]

@[simp] theorem setGrid_setGrid (g h : Grid) (s : State) :
    (s.setGrid g).setGrid h = s.setGrid h := by
  simp [State.setGrid]

@[simp] theorem setStore_same (s : State) : s.setStore s.ts = s := rfl

/-- The cell index of a coordinate given as an index. -/
@[simp] theorem coord_val (x : Fin 8) : coord (x.val : Int) = x := by
  revert x
  decide

@[simp] theorem inCoord_val (x : Fin 8) : inCoord (x.val : Int) = true := by
  revert x
  decide

theorem inCoord_iff (c : Int) : inCoord c = true ↔ 0 ≤ c ∧ c ≤ 7 := by simp [inCoord]

theorem inPixel_iff (v : Int) : inPixel v = true ↔ 0 ≤ v ∧ v ≤ 3 := by simp [inPixel]

theorem inTile_iff (t : Int) : inTile t = true ↔ 0 ≤ t ∧ t ≤ 255 := by simp [inTile]

theorem inByte_iff (b : Int) : inByte b = true ↔ 0 ≤ b ∧ b ≤ 255 := by simp [inByte]

theorem inAddr_iff (a : Int) : inAddr a = true ↔ 0 ≤ a ∧ a ≤ 8191 := by
  simp only [inAddr, Config.bufCap, Bool.and_eq_true, decide_eq_true_eq]
  omega

theorem inLen_iff (n : Int) : inLen n = true ↔ 0 ≤ n ∧ n ≤ 8192 := by
  simp [inLen, Config.bufCap]

/-- An integer in the domain of a coordinate is an index. -/
theorem coord_cast {c : Int} (h : inCoord c = true) : ((coord c).val : Int) = c := by
  rw [inCoord_iff] at h
  simp [coord, Fin.ofNat]
  omega

/-- What `cell_set` can do (R71): it succeeds exactly when the value and the coordinates are in their
domains, and then one cell of the current tile is written. -/
theorem cellSet_eq (x y v : Int) (s : State) :
    cellSet x y v s =
      if inPixel v = true ∧ inCoord x = true ∧ inCoord y = true then
        some (s.setGrid (withCell s.grid (coord x) (coord y) (pixelOf v)))
      else none := by
  simp [cellSet, and_assoc]

end Sys2Proof.Machine
end

