-- ==== Sys2Proof/Laws/Memory.lean ====
section
/-! SUPPORT. Laws of the byte space: read after write, and every write keeps the canonical form
(spec 20_memory.md R37, R38). -/

namespace Sys2Proof.Machine

open Sys2Proof

@[simp] theorem Memory.wf_nil : Memory.wf [] = true := rfl

@[simp] theorem Memory.read_nil (a : Nat) : Memory.read [] a = unlistedByte := rfl

theorem Memory.wfFrom_cons (lo k : Nat) (b : Byte) (m : Memory) :
    Memory.wfFrom lo ((k, b) :: m) = true ↔
      lo ≤ k ∧ k < 8192 ∧ b ≠ unlistedByte ∧ Memory.wfFrom (k + 1) m = true := by
  simp [Memory.wfFrom, Config.bufCap, and_assoc]

/-- A canonical list from `lo` on lists nothing below `lo`. -/
theorem Memory.read_below {lo a : Nat} {m : Memory} (h : m.wfFrom lo = true) (ha : a < lo) :
    m.read a = unlistedByte := by
  induction m generalizing lo with
  | nil => rfl
  | cons e m ih =>
    obtain ⟨k, b⟩ := e
    rw [Memory.wfFrom_cons] at h
    have hk : k ≠ a := by omega
    simp [Memory.read, hk, ih h.2.2.2 (by omega)]

theorem Memory.wfFrom_mono {lo lo' : Nat} {m : Memory} (h : m.wfFrom lo = true) (hl : lo' ≤ lo) :
    m.wfFrom lo' = true := by
  cases m with
  | nil => rfl
  | cons e m =>
    obtain ⟨k, b⟩ := e
    rw [Memory.wfFrom_cons] at h ⊢
    exact ⟨by omega, h.2⟩

/-- Read after write on a canonical memory. -/
theorem Memory.read_write_from {lo : Nat} {m : Memory} (h : m.wfFrom lo = true) (a c : Nat)
    (v : Byte) : (m.write a v).read c = if c = a then v else m.read c := by
  induction m generalizing lo with
  | nil =>
    by_cases hc : c = a
    · by_cases hv : v = unlistedByte <;> simp [Memory.write, Memory.read, hv, hc]
    · have : a ≠ c := fun e => hc e.symm
      by_cases hv : v = unlistedByte <;> simp [Memory.write, Memory.read, hv, hc, this]
  | cons e m ih =>
    obtain ⟨k, b⟩ := e
    rw [Memory.wfFrom_cons] at h
    have below : ∀ d, d ≤ k → Memory.read m d = unlistedByte := fun d hd =>
      Memory.read_below h.2.2.2 (by omega)
    simp only [Memory.write]
    split
    · next hak =>
      split
      · next hv =>
        by_cases hc : c = a
        · have : k ≠ a := by omega
          simp [Memory.read, hc, this, below a (by omega), hv]
        · simp [hc]
      · next hv =>
        by_cases hc : c = a
        · simp [Memory.read, hc]
        · have : a ≠ c := fun e => hc e.symm
          simp [Memory.read, hc, this]
    · split
      · next hak =>
        subst hak
        split
        · next hv =>
          by_cases hc : c = a
          · simp [hc, below a (by omega), hv]
          · have : a ≠ c := fun e => hc e.symm
            simp [Memory.read, hc, this]
        · next hv =>
          by_cases hc : c = a
          · simp [Memory.read, hc]
          · have : a ≠ c := fun e => hc e.symm
            simp [Memory.read, hc, this]
      · next h1 h2 =>
        simp only [Memory.read]
        split
        · next hkc =>
          have : c ≠ a := by omega
          simp [this]
        · exact ih h.2.2.2

/-- Read after write (00_scope.md section 7.2). -/
theorem Memory.read_write {m : Memory} (h : m.wf = true) (a c : Nat) (v : Byte) :
    (m.write a v).read c = if c = a then v else m.read c :=
  Memory.read_write_from h a c v

theorem Memory.wfFrom_write {lo a : Nat} {m : Memory} (h : m.wfFrom lo = true) (hl : lo ≤ a)
    (ha : a < 8192) (v : Byte) : (m.write a v).wfFrom lo = true := by
  induction m generalizing lo with
  | nil =>
    by_cases hv : v = unlistedByte
    · simp [Memory.write, hv, Memory.wfFrom]
    · simp [Memory.write, hv, Memory.wfFrom, hl, ha]
  | cons e m ih =>
    obtain ⟨k, b⟩ := e
    have h' := h
    rw [Memory.wfFrom_cons] at h
    obtain ⟨h1, h2, h3, h4⟩ := h
    simp only [Memory.write]
    split
    · next hak =>
      split
      · exact h'
      · next hv =>
        rw [Memory.wfFrom_cons, Memory.wfFrom_cons]
        exact ⟨hl, ha, hv, by omega, h2, h3, h4⟩
    · split
      · next hak =>
        subst hak
        split
        · exact Memory.wfFrom_mono h4 (by omega)
        · next hv =>
          rw [Memory.wfFrom_cons]
          exact ⟨hl, ha, hv, h4⟩
      · rw [Memory.wfFrom_cons]
        exact ⟨h1, h2, h3, ih h4 (by omega)⟩

/-- A write keeps the canonical form. -/
theorem Memory.wf_write {m : Memory} (h : m.wf = true) {a : Nat} (ha : a < 8192) (v : Byte) :
    (m.write a v).wf = true :=
  Memory.wfFrom_write h (Nat.zero_le a) ha v

/-- Writing a byte sequence keeps the canonical form. -/
theorem Memory.wf_writeList {m : Memory} (h : m.wf = true) {base : Nat} {bs : List Byte}
    (hb : base + bs.length ≤ 8192) : (m.writeList base bs).wf = true := by
  induction bs generalizing base with
  | nil => exact h
  | cons b bs ih =>
    simp only [List.length_cons] at hb
    exact Memory.wf_write (ih (by omega)) (by omega) b

/-- Read after writing a byte sequence. -/
theorem Memory.read_writeList {m : Memory} (h : m.wf = true) {base : Nat} {bs : List Byte}
    (hb : base + bs.length ≤ 8192) (c : Nat) :
    (m.writeList base bs).read c =
      if hc : base ≤ c ∧ c < base + bs.length then bs[c - base] else m.read c := by
  induction bs generalizing base with
  | nil =>
    simp [Memory.writeList]
  | cons b bs ih =>
    simp only [List.length_cons] at hb
    have hwf : (m.writeList (base + 1) bs).wf = true := Memory.wf_writeList h (by omega)
    simp only [Memory.writeList, Memory.read_write hwf, List.length_cons]
    by_cases hc : c = base
    · subst hc
      simp
    · rw [if_neg hc, ih (by omega)]
      by_cases hr : base ≤ c ∧ c < base + (bs.length + 1)
      · have hr' : base + 1 ≤ c ∧ c < base + 1 + bs.length := by omega
        rw [dif_pos hr', dif_pos hr]
        obtain ⟨j, hj⟩ : ∃ j, c - base = j + 1 := ⟨c - base - 1, by omega⟩
        have hj' : c - (base + 1) = j := by omega
        simp [hj, hj']
      · have hr' : ¬(base + 1 ≤ c ∧ c < base + 1 + bs.length) := by omega
        rw [dif_neg hr', dif_neg hr]

/-- Canonical memories that read alike from `lo` on are equal. -/
theorem Memory.ext_from {lo : Nat} {m n : Memory} (hm : m.wfFrom lo = true)
    (hn : n.wfFrom lo = true) (same : ∀ a, lo ≤ a → m.read a = n.read a) : m = n := by
  induction m generalizing lo n with
  | nil =>
    cases n with
    | nil => rfl
    | cons e n =>
      obtain ⟨k, b⟩ := e
      rw [Memory.wfFrom_cons] at hn
      have := same k hn.1
      simp [Memory.read] at this
      exact absurd this.symm hn.2.2.1
  | cons e m ih =>
    obtain ⟨k, b⟩ := e
    rw [Memory.wfFrom_cons] at hm
    cases n with
    | nil =>
      have := same k hm.1
      simp [Memory.read] at this
      exact absurd this hm.2.2.1
    | cons e' n =>
      obtain ⟨k', b'⟩ := e'
      rw [Memory.wfFrom_cons] at hn
      have hk : k = k' := by
        rcases Nat.lt_trichotomy k k' with hlt | heq | hgt
        · have := same k hm.1
          rw [show Memory.read ((k', b') :: n) k = unlistedByte from
            Memory.read_below (lo := k') (by rw [Memory.wfFrom_cons]; exact ⟨Nat.le_refl _, hn.2⟩)
              hlt] at this
          simp [Memory.read] at this
          exact absurd this hm.2.2.1
        · exact heq
        · have := same k' hn.1
          rw [show Memory.read ((k, b) :: m) k' = unlistedByte from
            Memory.read_below (lo := k) (by rw [Memory.wfFrom_cons]; exact ⟨Nat.le_refl _, hm.2⟩)
              hgt] at this
          simp [Memory.read] at this
          exact absurd this.symm hn.2.2.1
      subst hk
      have hb : b = b' := by
        have := same k hm.1
        simpa [Memory.read] using this
      subst hb
      have : m = n := ih hm.2.2.2 hn.2.2.2 fun a ha => by
        have := same a (by omega)
        have hne : k ≠ a := by omega
        simpa [Memory.read, hne] using this
      rw [this]

/-- Equal memories are equal data: canonical memories that read alike everywhere are equal. -/
theorem Memory.ext {m n : Memory} (hm : m.wf = true) (hn : n.wf = true)
    (same : ∀ a, m.read a = n.read a) : m = n :=
  Memory.ext_from hm hn fun a _ => same a

/-- Writing a byte again changes nothing (R42). -/
theorem Memory.write_write {m : Memory} (h : m.wf = true) {a : Nat} (ha : a < 8192) (v : Byte) :
    (m.write a v).write a v = m.write a v := by
  have hw := Memory.wf_write h ha v
  refine Memory.ext (Memory.wf_write hw ha v) hw fun c => ?_
  rw [Memory.read_write hw]
  split
  · next hc => rw [Memory.read_write h, if_pos hc]
  · rfl

/-- Writing a byte sequence again changes nothing (R42). -/
theorem Memory.writeList_writeList {m : Memory} (h : m.wf = true) {base : Nat} {bs : List Byte}
    (hb : base + bs.length ≤ 8192) :
    (m.writeList base bs).writeList base bs = m.writeList base bs := by
  have hw := Memory.wf_writeList h hb
  refine Memory.ext (Memory.wf_writeList hw hb) hw fun c => ?_
  rw [Memory.read_writeList hw hb]
  split
  · next hc => rw [Memory.read_writeList h hb, dif_pos hc]
  · rfl

end Sys2Proof.Machine
end

