-- ==== Sys2Proof/Laws/Codec.lean ====
section
/-! SUPPORT. Laws of the codec functions: which bit of which byte holds which bit of which pixel
(spec 00_scope.md R7, R8; 20_memory.md R32 to R34, R36). -/

namespace Sys2Proof.Machine

open Sys2Proof

/-- The bit of a pixel that `planeByte` reads, as a truth value. -/
theorem pixelBit_eq (v : Pixel) (p : Nat) : (v.toNat >>> p) &&& 1 = (v.getLsbD p).toNat := by
  rw [BitVec.getLsbD, Nat.testBit, Nat.and_comm 1]
  have : (v.toNat >>> p) &&& 1 < 2 := by
    rw [Nat.and_one_is_mod]
    omega
  interval_cases h : (v.toNat >>> p) &&& 1 <;> simp

/-- Eight truth values summed with the weights of a byte's bits: bit `7 - x` is the one of column
`x`. -/
theorem weightedBits_getLsbD : ∀ b0 b1 b2 b3 b4 b5 b6 b7 : Bool,
    ∀ x : Fin 8, (BitVec.ofNat 8 (b0.toNat <<< 7 + (b1.toNat <<< 6 + (b2.toNat <<< 5 +
      (b3.toNat <<< 4 + (b4.toNat <<< 3 + (b5.toNat <<< 2 + (b6.toNat <<< 1 + b7.toNat)))))))).getLsbD
        (7 - x.val) = [b0, b1, b2, b3, b4, b5, b6, b7][x.val] := by
  decide +kernel

/-- Bit `7 - x` of a plane byte is that plane's bit of the pixel of column `x` (R33, R34). -/
theorem planeByte_getLsbD (g : Grid) (p : Nat) (y x : Fin 8) :
    (planeByte g p y).getLsbD (7 - x.val) = (cellAt g x y).getLsbD p := by
  have h := weightedBits_getLsbD ((cellAt g 0 y).getLsbD p) ((cellAt g 1 y).getLsbD p)
    ((cellAt g 2 y).getLsbD p) ((cellAt g 3 y).getLsbD p) ((cellAt g 4 y).getLsbD p)
    ((cellAt g 5 y).getLsbD p) ((cellAt g 6 y).getLsbD p) ((cellAt g 7 y).getLsbD p) x
  have e : planeByte g p y = BitVec.ofNat 8 (((cellAt g 0 y).getLsbD p).toNat <<< 7 +
      (((cellAt g 1 y).getLsbD p).toNat <<< 6 + (((cellAt g 2 y).getLsbD p).toNat <<< 5 +
      (((cellAt g 3 y).getLsbD p).toNat <<< 4 + (((cellAt g 4 y).getLsbD p).toNat <<< 3 +
      (((cellAt g 5 y).getLsbD p).toNat <<< 2 + (((cellAt g 6 y).getLsbD p).toNat <<< 1 +
      ((cellAt g 7 y).getLsbD p).toNat))))))) := by
    simp only [planeByte, pixelBit_eq]
    rfl
  rw [e, h]
  fin_cases x <;> rfl

/-- Byte `2*y` of an encoded tile is the low plane of row `y` (R7, R32). -/
theorem encodeTile_low (g : Grid) (y : Fin 8) :
    (encodeTile g)[2 * y.val]'(by omega) = planeByte g 0 y := by
  have h0 : 2 * y.val % 2 = 0 := by omega
  simp [encodeTile, h0]

/-- Byte `2*y + 1` of an encoded tile is the high plane of row `y` (R7, R32). -/
theorem encodeTile_high (g : Grid) (y : Fin 8) :
    (encodeTile g)[2 * y.val + 1]'(by omega) = planeByte g 1 y := by
  have h0 : (2 * y.val + 1) % 2 = 1 := by omega
  have h1 : Fin.ofNat 8 ((2 * y.val + 1) / 2) = y := by
    apply Fin.ext
    simp only [Fin.ofNat]
    omega
  simp [encodeTile, h0, h1, -Fin.ofNat_eq_cast]

/-- The two bits of a decoded pixel are bit `7 - x` of the low and of the high plane byte (R8). -/
theorem decodeCell_bits (lo hi : Byte) (x : Fin 8) :
    (decodeCell lo hi x).getLsbD 0 = lo.getLsbD (7 - x.val) ∧
      (decodeCell lo hi x).getLsbD 1 = hi.getLsbD (7 - x.val) := by
  constructor <;> simp [decodeCell]

/-- A cell of a decoded tile (R8). -/
theorem cellAt_decodeTile (b : Vector Byte 16) (x y : Fin 8) :
    cellAt (decodeTile b) x y =
      decodeCell (b[2 * y.val]'(by omega)) (b[2 * y.val + 1]'(by omega)) x := by
  simp [cellAt, decodeTile]

/-- Two cells with the same two bits are equal. -/
theorem pixel_ext {p q : Pixel} (h0 : p.getLsbD 0 = q.getLsbD 0)
    (h1 : p.getLsbD 1 = q.getLsbD 1) : p = q := by
  apply BitVec.eq_of_getLsbD_eq
  intro i hi
  interval_cases i
  · exact h0
  · exact h1

/-- Byte `i` of the sixteen read at `base` (R32). -/
@[simp] theorem readTile_getElem (m : Memory) (base i : Nat) (h : i < 16) :
    (m.readTile base)[i] = m.read (base + i) := by
  simp [Memory.readTile]

/-- A chunk of a concatenation of chunks of equal length. -/
theorem flatMap_chunk {α β : Type} (f : α → List β) (n : Nat) (hf : ∀ a, (f a).length = n)
    (l : List α) (t i : Nat) (ht : t < l.length) (hi : i < n) :
    (l.flatMap f)[n * t + i]? = (f l[t])[i]? := by
  induction l generalizing t with
  | nil => exact absurd ht (Nat.not_lt_zero t)
  | cons a l ih =>
    cases t with
    | zero =>
      have : n * 0 + i < (f a).length := by simp [hf, hi]
      simp [List.getElem?_append_left, hf, hi]
    | succ t =>
      have h1 : (f a).length ≤ n * (t + 1) + i := by
        rw [hf, Nat.mul_succ]
        omega
      have h2 : n * (t + 1) + i - (f a).length = n * t + i := by
        rw [hf, Nat.mul_succ]
        omega
      rw [List.flatMap_cons, List.getElem?_append_right h1, h2,
        ih t (by simpa using ht)]
      rfl

/-- The store image has 4096 bytes (R36). -/
@[simp] theorem storeImage_length (ts : Store) : (storeImage ts).length = 4096 := by
  have h : ∀ l : List Grid, (l.flatMap fun g => (encodeTile g).toList).length = 16 * l.length := by
    intro l
    induction l with
    | nil => rfl
    | cons g l ih =>
      simp only [List.flatMap_cons, List.length_append, ih, Vector.length_toList, List.length_cons]
      omega
  rw [storeImage, h, Vector.length_toList]

/-- Byte `i` of tile `t` stands at `16*t + i` of the store image (R36). -/
theorem storeImage_getElem (ts : Store) (t : BitVec 8) (i : Nat) (hi : i < 16) :
    (storeImage ts)[16 * t.toNat + i]'(by
      have := t.isLt
      simp
      omega) = (encodeTile (tileAt ts t))[i] := by
  have h := flatMap_chunk (fun g : Grid => (encodeTile g).toList) 16 (fun g => by simp) ts.toList
    t.toNat i (by simpa using t.isLt) hi
  have hlen : 16 * t.toNat + i < (storeImage ts).length := by
    have := t.isLt
    simp
    omega
  have h2 := List.getElem?_eq_getElem hlen
  unfold storeImage at h2 ⊢
  rw [h] at h2
  have h3 : (encodeTile (ts.toList[t.toNat]'(by simpa using t.isLt))).toList[i]? =
      some ((encodeTile (tileAt ts t))[i]) := by
    simp [tileAt, hi]
  rw [h3] at h2
  exact (Option.some.inj h2).symm

/-- A tile of a decoded store image (R36, R104). -/
theorem tileAt_decodeStore (m : Memory) (t : BitVec 8) :
    tileAt (decodeStore m) t = decodeTile (m.readTile (16 * t.toNat)) := by
  simp [tileAt, decodeStore, Config.tileBytes]

end Sys2Proof.Machine
end

