-- ==== Sys2Proof/Laws/Decode.lean ====
section
/-! SUPPORT. Laws of the command word: reading a field of a packed word (spec 30_encoding.md R54), and
a word matching a row of R56's table in terms of its fields. -/

namespace Sys2Proof

/-- Bit `i` of a packed word (R54). -/
theorem packWord_getLsbD (op : BitVec 8) (a b c d e : Field) (i : Nat) :
    (packWord op a b c d e).getLsbD i =
      if i < 8 then op.getLsbD i
      else if i < 16 then false
      else if i < 32 then a.getLsbD (i - 16)
      else if i < 48 then b.getLsbD (i - 32)
      else if i < 64 then c.getLsbD (i - 48)
      else if i < 80 then d.getLsbD (i - 64)
      else e.getLsbD (i - 80) := by
  have h : (packWord op a b c d e).getLsbD i =
      BitVec.getLsbD (w := 16 + 16 + 16 + 16 + 16 + 8 + 8)
        (e ++ d ++ c ++ b ++ a ++ (0 : BitVec 8) ++ op) i := rfl
  rw [h]
  simp only [BitVec.getLsbD_append, BitVec.ofNat_eq_ofNat, BitVec.getLsbD_zero, Nat.sub_sub]
  repeat' split
  all_goals first | rfl | omega

theorem opcodeOf_packWord (op : BitVec 8) (a b c d e : Field) :
    opcodeOf (packWord op a b c d e) = op := by
  apply BitVec.eq_of_getLsbD_eq
  intro i hi
  simp [opcodeOf, packWord_getLsbD, hi]

theorem rsvOf_packWord (op : BitVec 8) (a b c d e : Field) :
    rsvOf (packWord op a b c d e) = 0 := by
  apply BitVec.eq_of_getLsbD_eq
  intro i hi
  simp [rsvOf, packWord_getLsbD, show 8 + i < 16 by omega]

theorem fieldA_packWord (op : BitVec 8) (a b c d e : Field) :
    fieldA (packWord op a b c d e) = a := by
  apply BitVec.eq_of_getLsbD_eq
  intro i hi
  have hlow : ∀ k, k ≤ 16 → ¬16 + i < k := fun k hk => by omega
  have hhigh : 16 + i < 32 := by omega
  simp [fieldA, packWord_getLsbD, hi, hlow, hhigh]

theorem fieldB_packWord (op : BitVec 8) (a b c d e : Field) :
    fieldB (packWord op a b c d e) = b := by
  apply BitVec.eq_of_getLsbD_eq
  intro i hi
  have hlow : ∀ k, k ≤ 32 → ¬32 + i < k := fun k hk => by omega
  have hhigh : 32 + i < 48 := by omega
  simp [fieldB, packWord_getLsbD, hi, hlow, hhigh]

theorem fieldC_packWord (op : BitVec 8) (a b c d e : Field) :
    fieldC (packWord op a b c d e) = c := by
  apply BitVec.eq_of_getLsbD_eq
  intro i hi
  have hlow : ∀ k, k ≤ 48 → ¬48 + i < k := fun k hk => by omega
  have hhigh : 48 + i < 64 := by omega
  simp [fieldC, packWord_getLsbD, hi, hlow, hhigh]

theorem fieldD_packWord (op : BitVec 8) (a b c d e : Field) :
    fieldD (packWord op a b c d e) = d := by
  apply BitVec.eq_of_getLsbD_eq
  intro i hi
  have hlow : ∀ k, k ≤ 64 → ¬64 + i < k := fun k hk => by omega
  have hhigh : 64 + i < 80 := by omega
  simp [fieldD, packWord_getLsbD, hi, hlow, hhigh]

theorem fieldE_packWord (op : BitVec 8) (a b c d e : Field) :
    fieldE (packWord op a b c d e) = e := by
  apply BitVec.eq_of_getLsbD_eq
  intro i hi
  have hlow : ∀ k, k ≤ 80 → ¬80 + i < k := fun k hk => by omega
  simp [fieldE, packWord_getLsbD, hi, hlow]

/-- A word is its fields put together (R54). -/
theorem packWord_fields (w : CmdWord) (h : rsvOf w = 0) :
    packWord (opcodeOf w) (fieldA w) (fieldB w) (fieldC w) (fieldD w) (fieldE w) = w := by
  apply BitVec.eq_of_getLsbD_eq
  intro i hi
  have hr : ∀ j, j < 8 → w.getLsbD (8 + j) = false := by
    intro j hj
    have := congrArg (fun v : BitVec 8 => v.getLsbD j) h
    simpa [rsvOf, hj] using this
  rw [packWord_getLsbD]
  simp only [opcodeOf, fieldA, fieldB, fieldC, fieldD, fieldE, BitVec.getLsbD_extractLsb']
  split
  · next h => simp [h]
  · split
    · next h1 h2 =>
      have := hr (i - 8) (by omega)
      rw [show 8 + (i - 8) = i by omega] at this
      exact this.symm
    · repeat' split
      · simp [show i - 16 < 16 by omega, show 16 + (i - 16) = i by omega]
      · simp [show i - 32 < 16 by omega, show 32 + (i - 32) = i by omega]
      · simp [show i - 48 < 16 by omega, show 48 + (i - 48) = i by omega]
      · simp [show i - 64 < 16 by omega, show 64 + (i - 64) = i by omega]
      · simp [show i - 80 < 16 by omega, show 80 + (i - 80) = i by omega]

/-- The signed value of the field of an operand that fits is the operand (R55). -/
theorem operandField_toInt {n : Int} (h : fitsField n = true) : (operandField n).toInt = n := by
  simp only [fitsField, Bool.and_eq_true, decide_eq_true_eq] at h
  rw [operandField, BitVec.toInt_ofInt]
  simp only [Int.bmod]
  omega

/-- Looking up the number of an opcode finds it: the fourteen numbers differ (R56). -/
theorem lookupOpcode_opcodeNumber (o : Opcode) : lookupOpcode (opcodeNumber o) = some o := by
  cases o <;> rfl

/-- A looked-up opcode has the number looked up. -/
theorem opcodeNumber_of_lookup {c : BitVec 8} {o : Opcode} (h : lookupOpcode c = some o) :
    opcodeNumber o = c := by
  have := List.find?_some h
  simpa using this

/-- Bit `i` of a word whose unused fields are zero (R61). -/
theorem unusedZero_iff (used : Nat) (w : CmdWord) :
    unusedZero used w = true ↔ ∀ i, 16 + 16 * used ≤ i → i < 96 → w.getLsbD i = false := by
  simp only [unusedZero, beq_iff_eq]
  constructor
  · intro h i h1 h2
    have := congrArg (fun v : CmdWord => v.getLsbD (i - (16 + 16 * used))) h
    simpa [show 16 + 16 * used + (i - (16 + 16 * used)) = i by omega] using this
  · intro h
    apply BitVec.eq_of_getLsbD_eq
    intro i hi
    by_cases h2 : 16 + 16 * used + i < 96
    · simpa using h (16 + 16 * used + i) (by omega) h2
    · have : w.getLsbD (16 + 16 * used + i) = false := BitVec.getLsbD_of_ge w _ (by omega)
      simpa using this

/-- Everything the decoder can answer: a command, when `rsv` is zero, the opcode is assigned and the
unused fields are zero (R66). -/
theorem decode_ok_iff (w : CmdWord) (i : Instr) :
    decode w = .ok i ↔ ∃ o, rsvOf w = 0 ∧ lookupOpcode (opcodeOf w) = some o ∧
      unusedZero (operandsUsed o) w = true ∧ commandOf o w = i := by
  unfold decode
  split
  · next h => exact ⟨fun e => by simp at e, fun ⟨o, h', _⟩ => absurd h' h⟩
  · next h =>
    have h : rsvOf w = 0 := not_not.mp h
    cases hl : lookupOpcode (opcodeOf w) with
    | none => simp
    | some o =>
      by_cases hu : unusedZero (operandsUsed o) w = true
      · simp [hu, h]
      · simp [hu]

end Sys2Proof
end

