-- ==== Sys2Proof/Laws/Line.lean ====
section
/-! SUPPORT. Everything the point loop of LINE can do (spec 42_linerasterizer.md R90, R93 to R95). -/

namespace Sys2Proof.Machine

open Sys2Proof

/-- The check that `cell_set` makes of the point at moving coordinate `c` (R71, R90). -/
def pointOk (f v c : Int) : Prop := inPixel v = true ∧ inCoord f = true ∧ inCoord c = true

/-- The cell (x, y) is a point of the run with fixed coordinate `f` and moving coordinates from `m`
to `m + k - 1`. -/
def onRun (ax : Axis) (f m : Int) (k : Nat) (x y : Fin 8) : Prop :=
  ∃ c : Int, m ≤ c ∧ c < m + k ∧ (x.val : Int) = pointX ax f c ∧ (y.val : Int) = pointY ax f c

/-- One point of the loop: `cell_set` succeeds exactly when the point passes its checks. -/
theorem cellSet_point (ax : Axis) (f v c : Int) (s : State) :
    (pointOk f v c ∧ cellSet (pointX ax f c) (pointY ax f c) v s =
        some (s.setGrid (withCell s.grid (coord (pointX ax f c)) (coord (pointY ax f c))
          (pixelOf v)))) ∨
      (¬pointOk f v c ∧ cellSet (pointX ax f c) (pointY ax f c) v s = none) := by
  rw [cellSet_eq]
  by_cases h : pointOk f v c
  · left
    obtain ⟨h1, h2, h3⟩ := h
    cases ax <;> simp [pointOk, pointX, pointY, h1, h2, h3]
  · right
    refine ⟨h, if_neg ?_⟩
    cases ax
    · exact h
    · exact fun ⟨h1, h2, h3⟩ => h ⟨h1, h3, h2⟩

/-- Everything `drawRun` can do: for some number `k` of points, the first `k` points pass their
checks and are written to the current tile, nothing else changes, and the loop either reached its
end or stopped at the next point, which fails (R90, R94). -/
theorem drawRun_cases (ax : Axis) (f v : Int) (count : Nat) (m : Int) (n : Nat) (s : State) :
    ∃ (k : Nat) (g : Grid), k ≤ count ∧ (∀ j : Nat, j < k → pointOk f v (m + j)) ∧
      (∀ x y : Fin 8, (onRun ax f m k x y → cellAt g x y = pixelOf v) ∧
        (¬onRun ax f m k x y → cellAt g x y = cellAt s.grid x y)) ∧
      ((k = count ∧ drawRun ax f v count m n s = (s.setGrid g, .ok, n + k)) ∨
        (k < count ∧ ¬pointOk f v (m + k) ∧
          drawRun ax f v count m n s = (s.setGrid g, .outOfRange, n + k))) := by
  induction count generalizing m n s with
  | zero =>
    refine ⟨0, s.grid, Nat.le_refl 0, by simp, ?_, Or.inl ⟨rfl, by simp [drawRun]⟩⟩
    intro x y
    refine ⟨?_, fun _ => rfl⟩
    rintro ⟨c, h1, h2, -⟩
    simp at h2
    omega
  | succ count ih =>
    rcases cellSet_point ax f v m s with ⟨hok, hset⟩ | ⟨hbad, hset⟩
    · obtain ⟨k, g, hk, hpts, hcells, hend⟩ :=
        ih (m + 1) (n + 1) (s.setGrid (withCell s.grid (coord (pointX ax f m))
          (coord (pointY ax f m)) (pixelOf v)))
      refine ⟨k + 1, g, by omega, ?_, ?_, ?_⟩
      · intro j hj
        cases j with
        | zero => simpa using hok
        | succ j =>
          have := hpts j (by omega)
          rwa [show m + 1 + (j : Int) = m + ((j + 1 : Nat) : Int) by push_cast; ring] at this
      · intro x y
        have hx : inCoord (pointX ax f m) = true := by
          obtain ⟨h1, h2, h3⟩ := hok
          cases ax <;> assumption
        have hy : inCoord (pointY ax f m) = true := by
          obtain ⟨h1, h2, h3⟩ := hok
          cases ax <;> assumption
        have hcell : cellAt (withCell s.grid (coord (pointX ax f m)) (coord (pointY ax f m))
            (pixelOf v)) x y = if (x.val : Int) = pointX ax f m ∧ (y.val : Int) = pointY ax f m
            then pixelOf v else cellAt s.grid x y := by
          rw [cellAt_withCell, ← coord_cast hx, ← coord_cast hy]
          simp [Fin.ext_iff]
        obtain ⟨hin, hout⟩ := hcells x y
        rw [setGrid_grid, hcell] at hout
        constructor
        · rintro ⟨c, h1, h2, hcx, hcy⟩
          by_cases hrest : onRun ax f (m + 1) k x y
          · exact hin hrest
          · have hc : c = m := by
              by_contra hne
              exact hrest ⟨c, by omega, by push_cast at h2; omega, hcx, hcy⟩
            subst hc
            rw [hout hrest, if_pos ⟨hcx, hcy⟩]
        · intro hnot
          have hrest : ¬onRun ax f (m + 1) k x y := by
            rintro ⟨c, h1, h2, hxy⟩
            exact hnot ⟨c, by omega, by push_cast; omega, hxy⟩
          rw [hout hrest, if_neg]
          rintro ⟨hcx, hcy⟩
          exact hnot ⟨m, by omega, by push_cast; omega, hcx, hcy⟩
      · have hnk : n + 1 + k = n + (k + 1) := by omega
        rcases hend with ⟨hkc, he⟩ | ⟨hlt, hbad, he⟩
        · left
          refine ⟨by omega, ?_⟩
          simp only [drawRun, hset]
          rw [he, hnk, setGrid_setGrid]
        · right
          refine ⟨by omega, ?_, ?_⟩
          · rwa [show m + 1 + (k : Int) = m + ((k + 1 : Nat) : Int) by push_cast; ring] at hbad
          · simp only [drawRun, hset]
            rw [he, hnk, setGrid_setGrid]
    · refine ⟨0, s.grid, Nat.zero_le _, by simp, ?_, Or.inr ⟨by omega, by simpa using hbad, ?_⟩⟩
      · intro x y
        refine ⟨?_, fun _ => rfl⟩
        rintro ⟨c, h1, h2, -⟩
        simp at h2
        omega
      · simp [drawRun, hset]

/-- The values at which the very first point of a line fails (R95, first row). -/
def firstPointFails (f v lo : Int) : Prop := v < 0 ∨ 3 < v ∨ f < 0 ∨ 7 < f ∨ lo < 0 ∨ 7 < lo

/-- Everything `drawSpan` can do with two different moving coordinates: `k` cells of the current tile
are written, and `k` and the status follow from where the span leaves the tile (R90, R95). -/
theorem drawSpan_cases (ax : Axis) (f v m1 m2 : Int) (hne : m1 ≠ m2) (s : State) :
    ∃ (k : Nat) (g : Grid), (∀ x y : Fin 8,
        (onRun ax f (min m1 m2) k x y → cellAt g x y = pixelOf v) ∧
        (¬onRun ax f (min m1 m2) k x y → cellAt g x y = cellAt s.grid x y)) ∧
      ((firstPointFails f v (min m1 m2) ∧ k = 0 ∧ g = s.grid ∧
          drawSpan ax f v m1 m2 s = (s.setGrid g, .outOfRange, k)) ∨
        (¬firstPointFails f v (min m1 m2) ∧ 7 < max m1 m2 ∧ (k : Int) = 8 - min m1 m2 ∧
          drawSpan ax f v m1 m2 s = (s.setGrid g, .outOfRange, k)) ∨
        (¬firstPointFails f v (min m1 m2) ∧ max m1 m2 ≤ 7 ∧
          (k : Int) = max m1 m2 - min m1 m2 + 1 ∧
          drawSpan ax f v m1 m2 s = (s.setGrid g, .ok, k))) := by
  obtain ⟨k, g, hk, hpts, hcells, he⟩ := drawRun_cases ax f v (max m1 m2 - min m1 m2 + 1).toNat
    (min m1 m2) 0 s
  refine ⟨k, g, hcells, ?_⟩
  have ok : ∀ c, pointOk f v c ↔ (0 ≤ v ∧ v ≤ 3) ∧ (0 ≤ f ∧ f ≤ 7) ∧ (0 ≤ c ∧ c ≤ 7) := by
    intro c
    simp only [pointOk, inPixel_iff, inCoord_iff]
  have hlt : min m1 m2 < max m1 m2 := by omega
  unfold drawSpan firstPointFails
  rcases he with ⟨hkc, he⟩ | ⟨hkc, hbad, he⟩
  · have h0 := (ok _).1 (hpts 0 (by omega))
    have hl := (ok _).1 (hpts (k - 1) (by omega))
    rw [he, Nat.zero_add]
    exact Or.inr (Or.inr ⟨by omega, by omega, by omega, rfl⟩)
  · rw [ok] at hbad
    rw [he, Nat.zero_add]
    by_cases hk0 : k = 0
    · subst hk0
      refine Or.inl ⟨?_, rfl, grid_ext fun x y => (hcells x y).2 ?_, rfl⟩
      · simp only [Nat.cast_zero, add_zero] at hbad
        omega
      · rintro ⟨c, h1, h2, -⟩
        simp only [Nat.cast_zero, add_zero] at h2
        omega
    · have h0 := (ok _).1 (hpts 0 (by omega))
      have hl := (ok _).1 (hpts (k - 1) (by omega))
      exact Or.inr (Or.inl ⟨by omega, by omega, by omega, rfl⟩)

end Sys2Proof.Machine
end

