-- ==== Sys2Proof/Laws/Exec.lean ====
section
/-! SUPPORT. What each meaning answers, one lemma per branch, so that later proofs cite these and do
not unfold the meanings (spec files 40 to 44). -/

namespace Sys2Proof.Machine

open Sys2Proof

theorem execGet_ok {x y : Int} (h : inCoord x = true ∧ inCoord y = true) (s : State) :
    exec (.get x y) s = .next (s.respond .ok (cellAt s.grid (coord x) (coord y)).toNat) := by
  simp [exec, execGet, h]

theorem execGet_bad {x y : Int} (h : ¬(inCoord x = true ∧ inCoord y = true)) (s : State) :
    exec (.get x y) s = .next (s.respond .outOfRange 0) := by
  simp [exec, execGet, h]

theorem execSet_ok {x y v : Int}
    (h : inPixel v = true ∧ inCoord x = true ∧ inCoord y = true) (s : State) :
    exec (.set x y v) s =
      .next ((s.setGrid (withCell s.grid (coord x) (coord y) (pixelOf v))).respond .ok
        (pixelOf v).toNat) := by
  simp [exec, execSet, cellSet_eq, h, cellAt_withCell]

theorem execSet_bad {x y v : Int}
    (h : ¬(inPixel v = true ∧ inCoord x = true ∧ inCoord y = true)) (s : State) :
    exec (.set x y v) s = .next (s.respond .outOfRange 0) := by
  simp [exec, execSet, cellSet_eq, h]

theorem execClamp_eq (s : State) : exec .clamp s = .next (s.respond .ok 0) := by
  simp [exec, execClamp]

theorem execEnc_eq (s : State) :
    exec .enc s =
      .next (((s.writeBytes 0 (encodeTile s.grid).toList).setBlen 16).respond .ok 0) := by
  simp [exec, execEnc]

theorem execDec_ok {s : State} (h : s.blen.toNat = 16) :
    exec .dec s = .next ((s.setGrid (decodeTile (s.buf.readTile 0))).respond .ok 0) := by
  simp [exec, execDec, Config.tileBytes, h]

theorem execDec_bad {s : State} (h : s.blen.toNat ≠ 16) :
    exec .dec s = .next (s.respond .formatError 0) := by
  simp [exec, execDec, Config.tileBytes, h]

theorem execLine_notAligned {x1 y1 x2 y2 : Int} (h : axisAligned x1 y1 x2 y2 = false) (v : Int)
    (s : State) : exec (.line x1 y1 x2 y2 v) s = .next (s.respond .validationError 0) := by
  simp [exec, execLine, h]

theorem execLine_vertical {y1 y2 : Int} (h : y1 ≠ y2) (x v : Int) (s : State) :
    exec (.line x y1 x y2 v) s =
      .next ((drawSpan .vertical x v y1 y2 s).1.respond (drawSpan .vertical x v y1 y2 s).2.1
        (drawSpan .vertical x v y1 y2 s).2.2) := by
  have ha : axisAligned x y1 x y2 = true := by simp [axisAligned, h]
  simp [exec, execLine, ha]

theorem execLine_horizontal {x1 x2 : Int} (h : x1 ≠ x2) (y v : Int) (s : State) :
    exec (.line x1 y x2 y v) s =
      .next ((drawSpan .horizontal y v x1 x2 s).1.respond (drawSpan .horizontal y v x1 x2 s).2.1
        (drawSpan .horizontal y v x1 x2 s).2.2) := by
  have ha : axisAligned x1 y x2 y = true := by simp [axisAligned, h]
  simp [exec, execLine, ha, h]

theorem execSelect_ok {t : Int} (h : inTile t = true) (s : State) :
    exec (.select t) s = .next ((s.setCur (tileOf t)).respond .ok (tileOf t).toNat) := by
  simp [exec, execSelect, h]

theorem execSelect_bad {t : Int} (h : inTile t = false) (s : State) :
    exec (.select t) s = .next (s.respond .outOfRange 0) := by
  simp [exec, execSelect, h]

theorem execSer_eq (s : State) :
    exec .ser s = .next (((s.writeBytes 0 (storeImage s.ts)).setBlen 4096).respond .ok 0) := by
  simp [exec, execSer]

theorem execDeser_ok {s : State} (h : s.blen.toNat = 4096) :
    exec .deser s = .next ((s.setStore (decodeStore s.buf)).respond .ok 0) := by
  simp [exec, execDeser, Config.storeBytes, h]

theorem execDeser_bad {s : State} (h : s.blen.toNat ≠ 4096) :
    exec .deser s = .next (s.respond .formatError 0) := by
  simp [exec, execDeser, Config.storeBytes, h]

theorem execBwr_ok {a b : Int} (h : inAddr a = true ∧ inByte b = true) (s : State) :
    exec (.bwr a b) s = .next ((s.writeByte (addrOf a) (byteOf b)).respond .ok 0) := by
  simp [exec, execBwr, h]

theorem execBwr_bad {a b : Int} (h : ¬(inAddr a = true ∧ inByte b = true)) (s : State) :
    exec (.bwr a b) s = .next (s.respond .outOfRange 0) := by
  simp [exec, execBwr, h]

theorem execBrd_ok {a : Int} (h : inAddr a = true) (s : State) :
    exec (.brd a) s = .next (s.respond .ok (s.buf.read (addrOf a)).toNat) := by
  simp [exec, execBrd, h]

theorem execBrd_bad {a : Int} (h : inAddr a = false) (s : State) :
    exec (.brd a) s = .next (s.respond .outOfRange 0) := by
  simp [exec, execBrd, h]

theorem execSetlen_ok {n : Int} (h : inLen n = true) (s : State) :
    exec (.setlen n) s = .next ((s.setBlen (lenOf n)).respond .ok (lenOf n).toNat) := by
  simp [exec, execSetlen, h]

theorem execSetlen_bad {n : Int} (h : inLen n = false) (s : State) :
    exec (.setlen n) s = .next (s.respond .outOfRange 0) := by
  simp [exec, execSetlen, h]

/-! ### Checked operands as values -/

theorem pixelOf_toNat {v : Int} (h : inPixel v = true) : (pixelOf v).toNat = v.toNat := by
  rw [inPixel_iff] at h
  simp only [pixelOf, BitVec.toNat_ofInt]
  omega

theorem tileOf_toNat {t : Int} (h : inTile t = true) : (tileOf t).toNat = t.toNat := by
  rw [inTile_iff] at h
  simp only [tileOf, BitVec.toNat_ofInt]
  omega

theorem byteOf_toNat {b : Int} (h : inByte b = true) : (byteOf b).toNat = b.toNat := by
  rw [inByte_iff] at h
  simp only [byteOf, BitVec.toNat_ofInt]
  omega

theorem lenOf_toNat {n : Int} (h : inLen n = true) : (lenOf n).toNat = n.toNat := by
  rw [inLen_iff] at h
  simp only [lenOf, BitVec.toNat_ofInt]
  omega

theorem addrOf_lt {a : Int} (h : inAddr a = true) : addrOf a < 8192 := by
  rw [inAddr_iff] at h
  simp only [addrOf]
  omega

/-! ### Response words -/

@[simp] theorem rspStatus_responseWord (st : Status) (d : Nat) :
    rspStatus (responseWord st d) = statusCode st := by
  apply BitVec.eq_of_getLsbD_eq
  intro i hi
  have h : (responseWord st d).getLsbD i =
      BitVec.getLsbD (w := 16 + 8) (zext16 d ++ statusCode st) i := rfl
  simp only [rspStatus, BitVec.getLsbD_extractLsb', hi, decide_true, Bool.true_and, Nat.zero_add]
  rw [h, BitVec.getLsbD_append, if_pos hi]

@[simp] theorem rspData_responseWord (st : Status) (d : Nat) :
    rspData (responseWord st d) = BitVec.ofNat 16 d := by
  apply BitVec.eq_of_getLsbD_eq
  intro i hi
  have h : (responseWord st d).getLsbD (8 + i) =
      BitVec.getLsbD (w := 16 + 8) (zext16 d ++ statusCode st) (8 + i) := rfl
  simp only [rspData, BitVec.getLsbD_extractLsb', hi, decide_true, Bool.true_and]
  rw [h, BitVec.getLsbD_append, if_neg (by omega)]
  simp [zext16]

end Sys2Proof.Machine
end

