-- ==== Sys2Proof/Laws/Effect.lean ====
section
/-! SUPPORT. Everything a command can do, said once: one case per branch of each command, with the
state it leaves before its response, its status and its data (spec files 40 to 44). Later proofs take
the cases of `Effect` and never unfold `exec`. -/

namespace Sys2Proof.Machine

open Sys2Proof

/-- The axis-aligned LINE with fixed coordinate `f` and moving coordinates `m1` and `m2` (R90). -/
def lineAlong (ax : Axis) (f m1 m2 v : Int) : Instr :=
  match ax with
  | .vertical => .line f m1 f m2 v
  | .horizontal => .line m1 f m2 f v

/-- `Effect s i t st d`: from `s` the command `i` leaves `t` and answers status `st` and data `d`. -/
inductive Effect (s : State) : Instr → State → Status → Nat → Prop where
  | getOk {x y : Int} (h : inCoord x = true ∧ inCoord y = true) :
      Effect s (.get x y) s .ok (cellAt s.grid (coord x) (coord y)).toNat
  | getBad {x y : Int} (h : ¬(inCoord x = true ∧ inCoord y = true)) :
      Effect s (.get x y) s .outOfRange 0
  | setOk {x y v : Int} (h : inPixel v = true ∧ inCoord x = true ∧ inCoord y = true) :
      Effect s (.set x y v) (s.setGrid (withCell s.grid (coord x) (coord y) (pixelOf v))) .ok
        (pixelOf v).toNat
  | setBad {x y v : Int} (h : ¬(inPixel v = true ∧ inCoord x = true ∧ inCoord y = true)) :
      Effect s (.set x y v) s .outOfRange 0
  | clamp : Effect s .clamp s .ok 0
  | enc : Effect s .enc ((s.writeBytes 0 (encodeTile s.grid).toList).setBlen 16) .ok 0
  | decOk (h : s.blen.toNat = 16) :
      Effect s .dec (s.setGrid (decodeTile (s.buf.readTile 0))) .ok 0
  | decBad (h : s.blen.toNat ≠ 16) : Effect s .dec s .formatError 0
  | lineInvalid {x1 y1 x2 y2 v : Int} (h : axisAligned x1 y1 x2 y2 = false) :
      Effect s (.line x1 y1 x2 y2 v) s .validationError 0
  | lineFails {ax : Axis} {f m1 m2 v : Int} (hne : m1 ≠ m2)
      (h : firstPointFails f v (min m1 m2)) :
      Effect s (lineAlong ax f m1 m2 v) s .outOfRange 0
  | lineLeaves {ax : Axis} {f m1 m2 v : Int} {k : Nat} {g : Grid} (hne : m1 ≠ m2)
      (h : ¬firstPointFails f v (min m1 m2)) (hhi : 7 < max m1 m2)
      (hk : (k : Int) = 8 - min m1 m2)
      (on : ∀ x y : Fin 8, onRun ax f (min m1 m2) k x y → cellAt g x y = pixelOf v)
      (off : ∀ x y : Fin 8, ¬onRun ax f (min m1 m2) k x y → cellAt g x y = cellAt s.grid x y) :
      Effect s (lineAlong ax f m1 m2 v) (s.setGrid g) .outOfRange k
  | lineOk {ax : Axis} {f m1 m2 v : Int} {k : Nat} {g : Grid} (hne : m1 ≠ m2)
      (h : ¬firstPointFails f v (min m1 m2)) (hhi : max m1 m2 ≤ 7)
      (hk : (k : Int) = max m1 m2 - min m1 m2 + 1)
      (on : ∀ x y : Fin 8, onRun ax f (min m1 m2) k x y → cellAt g x y = pixelOf v)
      (off : ∀ x y : Fin 8, ¬onRun ax f (min m1 m2) k x y → cellAt g x y = cellAt s.grid x y) :
      Effect s (lineAlong ax f m1 m2 v) (s.setGrid g) .ok k
  | selectOk {t : Int} (h : inTile t = true) :
      Effect s (.select t) (s.setCur (tileOf t)) .ok (tileOf t).toNat
  | selectBad {t : Int} (h : inTile t = false) : Effect s (.select t) s .outOfRange 0
  | rdcur : Effect s .rdcur s .ok s.cur.toNat
  | ser : Effect s .ser ((s.writeBytes 0 (storeImage s.ts)).setBlen 4096) .ok 0
  | deserOk (h : s.blen.toNat = 4096) : Effect s .deser (s.setStore (decodeStore s.buf)) .ok 0
  | deserBad (h : s.blen.toNat ≠ 4096) : Effect s .deser s .formatError 0
  | bwrOk {a b : Int} (h : inAddr a = true ∧ inByte b = true) :
      Effect s (.bwr a b) (s.writeByte (addrOf a) (byteOf b)) .ok 0
  | bwrBad {a b : Int} (h : ¬(inAddr a = true ∧ inByte b = true)) :
      Effect s (.bwr a b) s .outOfRange 0
  | brdOk {a : Int} (h : inAddr a = true) :
      Effect s (.brd a) s .ok (s.buf.read (addrOf a)).toNat
  | brdBad {a : Int} (h : inAddr a = false) : Effect s (.brd a) s .outOfRange 0
  | setlenOk {n : Int} (h : inLen n = true) :
      Effect s (.setlen n) (s.setBlen (lenOf n)) .ok (lenOf n).toNat
  | setlenBad {n : Int} (h : inLen n = false) : Effect s (.setlen n) s .outOfRange 0
  | rdlen : Effect s .rdlen s .ok s.blen.toNat

/-- What an axis-aligned LINE answers, by its loop. -/
theorem exec_lineAlong (ax : Axis) {m1 m2 : Int} (hne : m1 ≠ m2) (f v : Int) (s : State) :
    exec (lineAlong ax f m1 m2 v) s = .next ((drawSpan ax f v m1 m2 s).1.respond
      (drawSpan ax f v m1 m2 s).2.1 (drawSpan ax f v m1 m2 s).2.2) := by
  cases ax
  · exact execLine_vertical hne f v s
  · exact execLine_horizontal hne f v s

/-- The axis check of R91. -/
theorem axisAligned_iff (x1 y1 x2 y2 : Int) :
    axisAligned x1 y1 x2 y2 = true ↔ Xor (x1 = x2) (y1 = y2) := by
  by_cases hx : x1 = x2 <;> by_cases hy : y1 = y2 <;> simp [axisAligned, Xor, hx, hy]

/-- `lineAlong` is a LINE that passes the axis check. -/
theorem lineAlong_eq (ax : Axis) {m1 m2 : Int} (hne : m1 ≠ m2) (f v : Int) :
    ∃ x1 y1 x2 y2, lineAlong ax f m1 m2 v = .line x1 y1 x2 y2 v ∧ Xor (x1 = x2) (y1 = y2) := by
  cases ax
  · exact ⟨_, _, _, _, rfl, .inl ⟨rfl, hne⟩⟩
  · exact ⟨_, _, _, _, rfl, .inr ⟨rfl, hne⟩⟩

/-- An axis-aligned LINE has one of the three outcomes of R95's table. -/
theorem lineAlong_effect (ax : Axis) {m1 m2 : Int} (hne : m1 ≠ m2) (f v : Int) (s : State) :
    ∃ t st d, exec (lineAlong ax f m1 m2 v) s = .next (t.respond st d) ∧
      Effect s (lineAlong ax f m1 m2 v) t st d := by
  have hex := exec_lineAlong ax hne f v s
  obtain ⟨k, g, hcells, h | h | h⟩ := drawSpan_cases ax f v m1 m2 hne s
  · obtain ⟨hf, hk, hg, he⟩ := h
    rw [he, hk, hg, setGrid_same] at hex
    exact ⟨_, _, _, hex, .lineFails hne hf⟩
  · obtain ⟨hf, hhi, hk, he⟩ := h
    rw [he] at hex
    exact ⟨_, _, _, hex, .lineLeaves hne hf hhi hk (fun x y => (hcells x y).1)
      (fun x y => (hcells x y).2)⟩
  · obtain ⟨hf, hhi, hk, he⟩ := h
    rw [he] at hex
    exact ⟨_, _, _, hex, .lineOk hne hf hhi hk (fun x y => (hcells x y).1)
      (fun x y => (hcells x y).2)⟩

/-- Every command answers a next state, by one of the cases of `Effect`. -/
theorem exec_effect (i : Instr) (s : State) :
    ∃ t st d, exec i s = .next (t.respond st d) ∧ Effect s i t st d := by
  cases i with
  | get x y =>
    by_cases h : inCoord x = true ∧ inCoord y = true
    · exact ⟨_, _, _, execGet_ok h s, .getOk h⟩
    · exact ⟨_, _, _, execGet_bad h s, .getBad h⟩
  | set x y v =>
    by_cases h : inPixel v = true ∧ inCoord x = true ∧ inCoord y = true
    · exact ⟨_, _, _, execSet_ok h s, .setOk h⟩
    · exact ⟨_, _, _, execSet_bad h s, .setBad h⟩
  | clamp => exact ⟨_, _, _, execClamp_eq s, .clamp⟩
  | enc => exact ⟨_, _, _, execEnc_eq s, .enc⟩
  | dec =>
    by_cases h : s.blen.toNat = 16
    · exact ⟨_, _, _, execDec_ok h, .decOk h⟩
    · exact ⟨_, _, _, execDec_bad h, .decBad h⟩
  | line x1 y1 x2 y2 v =>
    by_cases ha : axisAligned x1 y1 x2 y2 = true
    · by_cases hx : x1 = x2
      · subst hx
        have hy : y1 ≠ y2 := by simpa [axisAligned] using ha
        exact lineAlong_effect .vertical hy x1 v s
      · have hy : y1 = y2 := by simpa [axisAligned, hx] using ha
        subst hy
        exact lineAlong_effect .horizontal hx y1 v s
    · have ha : axisAligned x1 y1 x2 y2 = false := by simpa using ha
      exact ⟨_, _, _, execLine_notAligned ha v s, .lineInvalid ha⟩
  | select t =>
    cases h : inTile t with
    | true => exact ⟨_, _, _, execSelect_ok h s, .selectOk h⟩
    | false => exact ⟨_, _, _, execSelect_bad h s, .selectBad h⟩
  | rdcur => exact ⟨_, _, _, rfl, .rdcur⟩
  | ser => exact ⟨_, _, _, execSer_eq s, .ser⟩
  | deser =>
    by_cases h : s.blen.toNat = 4096
    · exact ⟨_, _, _, execDeser_ok h, .deserOk h⟩
    · exact ⟨_, _, _, execDeser_bad h, .deserBad h⟩
  | bwr a b =>
    by_cases h : inAddr a = true ∧ inByte b = true
    · exact ⟨_, _, _, execBwr_ok h s, .bwrOk h⟩
    · exact ⟨_, _, _, execBwr_bad h s, .bwrBad h⟩
  | brd a =>
    cases h : inAddr a with
    | true => exact ⟨_, _, _, execBrd_ok h s, .brdOk h⟩
    | false => exact ⟨_, _, _, execBrd_bad h s, .brdBad h⟩
  | setlen n =>
    cases h : inLen n with
    | true => exact ⟨_, _, _, execSetlen_ok h s, .setlenOk h⟩
    | false => exact ⟨_, _, _, execSetlen_bad h s, .setlenBad h⟩
  | rdlen => exact ⟨_, _, _, rfl, .rdlen⟩

/-- The effect of a command that answered a next state. -/
theorem effect_of_exec {i : Instr} {s u : State} (h : exec i s = .next u) :
    ∃ t st d, u = t.respond st d ∧ Effect s i t st d := by
  obtain ⟨t, st, d, he, heff⟩ := exec_effect i s
  rw [he] at h
  injection h with h
  exact ⟨t, st, d, h.symm, heff⟩

end Sys2Proof.Machine
end

