-- ==== Sys2Proof/Laws/PerInstr.lean ====
section
/-! SUPPORT. Statements made of every command, one lemma per constructor: the header of its word
(spec 30_encoding.md R54, R56, R60, R61). -/

namespace Sys2Proof.Laws

open Sys2Proof

/-- The word of a command carries its opcode, a zero reserved byte, and zero unused fields. -/
def Header.Statement (i : Instr) : Prop :=
  opcodeOf (encode i) = opcodeNumber i.opcode ∧ rsvOf (encode i) = 0 ∧
    unusedZero (operandsUsed i.opcode) (encode i) = true

/-- The unused fields of a packed word are zero when its upper fields are. -/
theorem unusedZero_packWord (used : Nat) (op : BitVec 8) (a b c d e : Field)
    (ha : used ≤ 0 → a = 0) (hb : used ≤ 1 → b = 0) (hc : used ≤ 2 → c = 0) (hd : used ≤ 3 → d = 0)
    (he : used ≤ 4 → e = 0) : unusedZero used (packWord op a b c d e) = true := by
  rw [unusedZero_iff]
  intro i h1 h2
  rw [packWord_getLsbD, if_neg (by omega), if_neg (by omega)]
  split
  · rw [ha (by omega)]
    simp
  · split
    · rw [hb (by omega)]
      simp
    · split
      · rw [hc (by omega)]
        simp
      · split
        · rw [hd (by omega)]
          simp
        · by_cases hu : used ≤ 4
          · rw [he hu]
            simp
          · omega

theorem Header.get (x y : Int) : Header.Statement (.get x y) :=
  ⟨opcodeOf_packWord .., rsvOf_packWord .., unusedZero_packWord 2 _ _ _ _ _ _ (by simp) (by simp)
    (by simp) (by simp) (by simp)⟩

theorem Header.set (x y v : Int) : Header.Statement (.set x y v) :=
  ⟨opcodeOf_packWord .., rsvOf_packWord .., unusedZero_packWord 3 _ _ _ _ _ _ (by simp) (by simp)
    (by simp) (by simp) (by simp)⟩

theorem Header.clamp : Header.Statement .clamp :=
  ⟨opcodeOf_packWord .., rsvOf_packWord .., unusedZero_packWord 0 _ _ _ _ _ _ (by simp) (by simp)
    (by simp) (by simp) (by simp)⟩

theorem Header.enc : Header.Statement .enc :=
  ⟨opcodeOf_packWord .., rsvOf_packWord .., unusedZero_packWord 0 _ _ _ _ _ _ (by simp) (by simp)
    (by simp) (by simp) (by simp)⟩

theorem Header.dec : Header.Statement .dec :=
  ⟨opcodeOf_packWord .., rsvOf_packWord .., unusedZero_packWord 0 _ _ _ _ _ _ (by simp) (by simp)
    (by simp) (by simp) (by simp)⟩

theorem Header.line (x1 y1 x2 y2 v : Int) : Header.Statement (.line x1 y1 x2 y2 v) :=
  ⟨opcodeOf_packWord .., rsvOf_packWord .., unusedZero_packWord 5 _ _ _ _ _ _ (by simp) (by simp)
    (by simp) (by simp) (by simp)⟩

theorem Header.select (t : Int) : Header.Statement (.select t) :=
  ⟨opcodeOf_packWord .., rsvOf_packWord .., unusedZero_packWord 1 _ _ _ _ _ _ (by simp) (by simp)
    (by simp) (by simp) (by simp)⟩

theorem Header.rdcur : Header.Statement .rdcur :=
  ⟨opcodeOf_packWord .., rsvOf_packWord .., unusedZero_packWord 0 _ _ _ _ _ _ (by simp) (by simp)
    (by simp) (by simp) (by simp)⟩

theorem Header.ser : Header.Statement .ser :=
  ⟨opcodeOf_packWord .., rsvOf_packWord .., unusedZero_packWord 0 _ _ _ _ _ _ (by simp) (by simp)
    (by simp) (by simp) (by simp)⟩

theorem Header.deser : Header.Statement .deser :=
  ⟨opcodeOf_packWord .., rsvOf_packWord .., unusedZero_packWord 0 _ _ _ _ _ _ (by simp) (by simp)
    (by simp) (by simp) (by simp)⟩

theorem Header.bwr (a b : Int) : Header.Statement (.bwr a b) :=
  ⟨opcodeOf_packWord .., rsvOf_packWord .., unusedZero_packWord 2 _ _ _ _ _ _ (by simp) (by simp)
    (by simp) (by simp) (by simp)⟩

theorem Header.brd (a : Int) : Header.Statement (.brd a) :=
  ⟨opcodeOf_packWord .., rsvOf_packWord .., unusedZero_packWord 1 _ _ _ _ _ _ (by simp) (by simp)
    (by simp) (by simp) (by simp)⟩

theorem Header.setlen (n : Int) : Header.Statement (.setlen n) :=
  ⟨opcodeOf_packWord .., rsvOf_packWord .., unusedZero_packWord 1 _ _ _ _ _ _ (by simp) (by simp)
    (by simp) (by simp) (by simp)⟩

theorem Header.rdlen : Header.Statement .rdlen :=
  ⟨opcodeOf_packWord .., rsvOf_packWord .., unusedZero_packWord 0 _ _ _ _ _ _ (by simp) (by simp)
    (by simp) (by simp) (by simp)⟩

end Sys2Proof.Laws
end

