-- ==== Sys2Proof/Laws/Step.lean ====
section
/-! SUPPORT. Everything one rising edge can do, so that later proofs do not unfold the step (spec
30_encoding.md R51; 70_reset_and_hazards.md R140, R149, R150). -/

namespace Sys2Proof.Machine

open Sys2Proof

theorem step_reset {s : State} (h : s.pins.rst = true) :
    step s = .next s.popPins.hardReset := by
  simp [step, edge, h]

theorem step_delay {s : State} (h : s.pins.rst = false) (hw : s.wait ≠ 0) :
    step s = .next s.popPins.tick := by
  simp [step, edge, h, hw]

theorem step_deliver {s : State} {r : RspWord} (h : s.pins.rst = false) (hw : s.wait = 0)
    (hr : s.rsp = some r) (ht : s.pins.rspReady = true) :
    step s = .next (s.popPins.deliver r) := by
  simp [step, edge, h, hw, hr, ht]

theorem step_hold {s : State} {r : RspWord} (h : s.pins.rst = false) (hw : s.wait = 0)
    (hr : s.rsp = some r) (ht : s.pins.rspReady = false) :
    step s = .next s.popPins := by
  simp [step, edge, h, hw, hr, ht]

theorem step_accept {s : State} (h : s.pins.rst = false) (hw : s.wait = 0) (hr : s.rsp = none)
    (hv : s.pins.cmdValid = true) :
    step s = execWord s.pins.cmdWord s.popPins := by
  simp [step, edge, h, hw, hr, hv]

theorem step_idle {s : State} (h : s.pins.rst = false) (hw : s.wait = 0) (hr : s.rsp = none)
    (hv : s.pins.cmdValid = false) :
    step s = .next s.popPins := by
  simp [step, edge, h, hw, hr, hv]

theorem execWord_ok {w : CmdWord} {i : Instr} (h : decode w = .ok i) (s : State) :
    execWord w s = exec i s := by
  simp [execWord, h]

theorem execWord_error {w : CmdWord} {e : DecodeError} (h : decode w = .error e) (s : State) :
    execWord w s = .next (s.respond .illegalCommand 0) := by
  simp [execWord, h]

/-- Every command leaves the host's side and the counters of the delays as they were before its one
response, never answers TypeArgument, and answers data of at most 8192 where `BLEN` is legal (R52,
R57, R120, R122). -/
theorem effect_ports {i : Instr} {s t : State} {st : Status} {d : Nat} (h : Effect s i t st d) :
    t.rsp = s.rsp ∧ t.wait = s.wait ∧ t.draws = s.draws ∧ t.inputs = s.inputs ∧
      t.delivered = s.delivered ∧ st ≠ .typeArgument ∧ (s.blen.toNat ≤ 8192 → d ≤ 8192) := by
  have byteBound : ∀ b : BitVec 8, b.toNat ≤ 8192 := fun b => by omega
  have pixelBound : ∀ p : Pixel, p.toNat ≤ 8192 := fun p => by omega
  cases h with
  | lineLeaves hne hf hhi hk on off =>
    simp only [firstPointFails] at hf
    exact ⟨rfl, rfl, rfl, rfl, rfl, by simp, fun _ => by omega⟩
  | lineOk hne hf hhi hk on off =>
    simp only [firstPointFails] at hf
    exact ⟨rfl, rfl, rfl, rfl, rfl, by simp, fun _ => by omega⟩
  | setlenOk hn =>
    refine ⟨rfl, rfl, rfl, rfl, rfl, by simp, fun _ => ?_⟩
    rw [lenOf_toNat hn]
    rw [inLen_iff] at hn
    omega
  | getOk hc => exact ⟨rfl, rfl, rfl, rfl, rfl, by simp, fun _ => pixelBound _⟩
  | setOk hc => exact ⟨rfl, rfl, rfl, rfl, rfl, by simp, fun _ => pixelBound _⟩
  | selectOk hc => exact ⟨rfl, rfl, rfl, rfl, rfl, by simp, fun _ => byteBound _⟩
  | rdcur => exact ⟨rfl, rfl, rfl, rfl, rfl, by simp, fun _ => byteBound _⟩
  | brdOk hc => exact ⟨rfl, rfl, rfl, rfl, rfl, by simp, fun _ => byteBound _⟩
  | rdlen => exact ⟨rfl, rfl, rfl, rfl, rfl, by simp, fun hb => hb⟩
  | _ => simp

/-! ### Several edges -/

theorem edges_succ {s t : State} (h : step s = .next t) (n : Nat) :
    edges (n + 1) s = edges n t := by
  simp [edges, h, nextOf]

theorem edges_add {m : Nat} {s t : State} (h : edges m s = some t) (n : Nat) :
    edges (m + n) s = edges n t := by
  induction m generalizing s with
  | zero =>
    rw [edges, Option.some.injEq] at h
    subst h
    rw [Nat.zero_add]
  | succ m ih =>
    rw [Nat.add_right_comm]
    cases he : step s with
    | next u =>
      rw [edges_succ he] at h ⊢
      exact ih h
    | fault f => cases f
    | refused r => simp [edges, he, nextOf] at h

/-- A running delay passes, whatever the host's pins do but for `rst`. -/
theorem edges_wait {s : State} {pins more : List PortIn} (hp : ∀ p ∈ pins, p.rst = false)
    (hw : s.wait = pins.length) (hi : s.inputs = pins ++ more) :
    edges pins.length s = some { s with wait := 0, inputs := more } := by
  induction pins generalizing s with
  | nil =>
    obtain ⟨ts, cur, blen, buf, rsp, wait, draws, inputs, delivered⟩ := s
    subst hw hi
    rfl
  | cons p pins ih =>
    have hpins : s.pins = p := by simp [State.pins, hi]
    rw [List.length_cons] at hw ⊢
    rw [edges_succ (step_delay (hpins ▸ hp p List.mem_cons_self) (by omega))]
    exact ih (fun q hq => hp q (List.mem_cons_of_mem p hq)) (by simp [hw]) (by simp [hi])

/-! ### Words accepted -/

theorem accepting_eq (s : State) : s.accepting =
    if s.pins.rst = false ∧ s.pins.cmdValid = true ∧ s.rsp = none ∧ s.wait = 0
    then some s.pins.cmdWord else none := by
  simp only [State.accepting, State.cmdReady, Bool.and_eq_true, Bool.not_eq_true', beq_iff_eq,
    Option.isNone_iff_eq_none, and_assoc]

theorem acceptedWords_succ {s t : State} (h : step s = .next t) (n : Nat) :
    acceptedWords (n + 1) s = s.accepting.toList ++ acceptedWords n t := by
  simp [acceptedWords, h, nextOf]

end Sys2Proof.Machine
end

