-- ==== Sys2Proof/Laws/Run.lean ====
section
/-! SUPPORT. Commands issued one after another (spec 30_encoding.md R52, R64): what one command adds to
a list of commands, what a command word can do, what the byte loads and dumps of the
pseudo-instructions do, and that a command sees nothing but the architectural state (R43). -/

namespace Sys2Proof.Machine

open Sys2Proof

/-- Everything a command word can do (R52, R66). -/
theorem execWord_effect (w : CmdWord) (s : State) :
    ∃ t st d, execWord w s = .next (t.respond st d) ∧
      ((t = s ∧ st = .illegalCommand ∧ d = 0) ∨ ∃ i, decode w = .ok i ∧ Effect s i t st d) := by
  cases hd : decode w with
  | error e => exact ⟨_, _, _, execWord_error hd s, .inl ⟨rfl, rfl, rfl⟩⟩
  | ok i =>
    obtain ⟨t, st, d, h, e⟩ := exec_effect i s
    exact ⟨t, st, d, by rw [execWord_ok hd, h], .inr ⟨i, rfl, e⟩⟩

theorem transact_next {w : CmdWord} {s t : State} {st : Status} {d : Nat}
    (h : execWord w s = .next (t.respond st d)) :
    transact w s = some (t.respond st d, responseWord st d) := by
  simp [transact, h, nextOf]

theorem transactInstr_next {i : Instr} {s t : State} {st : Status} {d : Nat}
    (h : exec i s = .next (t.respond st d)) :
    transactInstr i s = some (t.respond st d, responseWord st d) := by
  simp [transactInstr, h, nextOf]

theorem runInstrs_cons {i : Instr} {is : List Instr} {s t : State} {st : Status} {d : Nat}
    (h : exec i s = .next (t.respond st d)) :
    runInstrs (i :: is) s =
      (runInstrs is (t.respond st d)).map fun z => (z.1, responseWord st d :: z.2) := by
  simp [runInstrs, transactInstr_next h]

theorem runInstrs_append (is js : List Instr) (s : State) :
    runInstrs (is ++ js) s =
      (runInstrs is s).bind fun z => (runInstrs js z.1).map fun y => (y.1, z.2 ++ y.2) := by
  induction is generalizing s with
  | nil => simp [runInstrs]
  | cons i is ih =>
    obtain ⟨t, st, d, h, -⟩ := exec_effect i s
    simp only [List.cons_append, runInstrs_cons h, ih]
    cases runInstrs is (t.respond st d) with
    | none => rfl
    | some z => cases h2 : runInstrs js z.1 <;> simp [h2]

/-- BLOAD of bytes that fit in `BUF` writes them and changes nothing else (R64, R110). -/
theorem runInstrs_bload {a : Nat} {bs : List Byte} {s : State} (hs : s.buf.wf = true)
    (h : a + bs.length ≤ 8192) :
    ∃ t, runInstrs (expandBload a (bs.map fun b => (b.toNat : Int))) s =
        some (t, List.replicate bs.length 0) ∧
      t.ts = s.ts ∧ t.cur = s.cur ∧ t.blen = s.blen ∧ t.buf.wf = true ∧
      t.buf = s.buf.writeList a bs := by
  induction bs generalizing a s with
  | nil => exact ⟨s, rfl, rfl, rfl, rfl, hs, rfl⟩
  | cons b bs ih =>
    simp only [List.length_cons] at h
    have ha : inAddr (a : Int) = true := by rw [inAddr_iff]; omega
    have hb : inByte (b.toNat : Int) = true := by
      rw [inByte_iff]
      have := b.isLt
      omega
    have hx := execBwr_ok ⟨ha, hb⟩ s
    rw [show byteOf (b.toNat : Int) = b from
        BitVec.eq_of_toNat_eq (by rw [byteOf_toNat hb]; simp),
      show addrOf (a : Int) = a from rfl] at hx
    have hwf : (s.buf.write a b).wf = true := Memory.wf_write hs (by omega) _
    obtain ⟨t, h1, h2, h3, h4, h5, h6⟩ :=
      ih (a := a + 1) (s := (s.writeByte a b).respond .ok 0) (by simpa using hwf) (by omega)
    refine ⟨t, ?_, h2, h3, h4, h5, ?_⟩
    · rw [List.map_cons, expandBload, runInstrs_cons hx,
        show (a : Int) + 1 = ((a + 1 : Nat) : Int) by push_cast; rfl, h1]
      rfl
    · rw [h6]
      simp only [respond_buf, writeByte_buf]
      refine Memory.ext (Memory.wf_writeList hwf (by omega))
        (Memory.wf_writeList hs (by simp; omega)) fun c => ?_
      rw [Memory.read_writeList hwf (by omega), Memory.read_writeList hs (by simp; omega),
        Memory.read_write hs]
      by_cases hc : c = a
      · subst hc
        simp
      · by_cases hin : a + 1 ≤ c ∧ c < a + 1 + bs.length
        · rw [dif_pos hin, dif_pos (by simp; omega)]
          simp [show c - a = c - (a + 1) + 1 by omega]
        · rw [dif_neg hin, dif_neg (by simp; omega), if_neg hc]

/-- BDUMP of addresses in `BUF` answers its bytes and changes nothing (R64, R111). -/
theorem runInstrs_bdump {a n : Nat} {s : State} (h : a + n ≤ 8192) :
    ∃ t, runInstrs (expandBdump a n) s =
        some (t, (List.range n).map fun i => responseWord .ok (s.buf.read (a + i)).toNat) ∧
      t.arch = s.arch := by
  induction n generalizing a s with
  | zero => exact ⟨s, rfl, rfl⟩
  | succ n ih =>
    have hx := execBrd_ok (a := (a : Int)) (by rw [inAddr_iff]; omega) s
    obtain ⟨t, h1, h2⟩ := ih (a := a + 1)
      (s := s.respond .ok (s.buf.read (addrOf (a : Int))).toNat) (by omega)
    refine ⟨t, ?_, h2⟩
    rw [expandBdump, runInstrs_cons hx, show (a : Int) + 1 = ((a + 1 : Nat) : Int) by push_cast; rfl,
      h1, List.range_succ_eq_map]
    simp only [addrOf, Int.toNat_natCast, respond_buf, Option.map_some, List.map_cons, Nat.add_zero,
      List.map_map]
    refine congrArg (fun l => some (t, _ :: l)) (List.map_congr_left fun i _ => ?_)
    simp only [Function.comp]
    rw [show a + 1 + i = a + (i + 1) by omega]

/-- From two states with the same architectural state a command answers the same status and data and
leaves the same architectural state (R43). -/
theorem exec_congr {i : Instr} {s s' t : State} {st : Status} {d : Nat} (h : Effect s i t st d)
    (ha : s.arch = s'.arch) : ∃ t' : State, exec i s' = .next (t'.respond st d) ∧ t'.arch = t.arch := by
  have h1 : s.ts = s'.ts := congrArg Arch.ts ha
  have h2 : s.cur = s'.cur := congrArg Arch.cur ha
  have h3 : s.blen = s'.blen := congrArg Arch.blen ha
  have h4 : s.buf = s'.buf := congrArg Arch.buf ha
  have h5 : s.grid = s'.grid := by simp [State.grid, h1, h2]
  -- the cells and the count of a line determine the grid it leaves
  have same : ∀ {ax : Axis} {f m v : Int} {k k' : Nat} {g g' : Grid}, k' = k →
      (∀ x y : Fin 8, onRun ax f m k x y → cellAt g x y = pixelOf v) →
      (∀ x y : Fin 8, ¬onRun ax f m k x y → cellAt g x y = cellAt s.grid x y) →
      (∀ x y : Fin 8, (onRun ax f m k' x y → cellAt g' x y = pixelOf v) ∧
        (¬onRun ax f m k' x y → cellAt g' x y = cellAt s'.grid x y)) → g' = g := by
    intro ax f m v k k' g g' hk on off hc
    subst k'
    refine grid_ext fun x y => ?_
    by_cases hr : onRun ax f m k x y
    · rw [(hc x y).1 hr, on x y hr]
    · rw [(hc x y).2 hr, off x y hr, h5]
  cases h with
  | getOk c =>
    rw [h5]
    exact ⟨_, execGet_ok c s', ha.symm⟩
  | getBad c => exact ⟨_, execGet_bad c s', ha.symm⟩
  | setOk c =>
    exact ⟨_, execSet_ok c s', arch_ext (by simp [h1, h2, h5]) (by simp [h2]) (by simp [h3])
      (by simp [h4])⟩
  | setBad c => exact ⟨_, execSet_bad c s', ha.symm⟩
  | clamp => exact ⟨_, execClamp_eq s', ha.symm⟩
  | enc =>
    exact ⟨_, execEnc_eq s', arch_ext (by simp [h1]) (by simp [h2]) (by simp) (by simp [h4, h5])⟩
  | decOk c =>
    rw [h3] at c
    exact ⟨_, execDec_ok c, arch_ext (by simp [h1, h2, h4]) (by simp [h2]) (by simp [h3])
      (by simp [h4])⟩
  | decBad c =>
    rw [h3] at c
    exact ⟨_, execDec_bad c, ha.symm⟩
  | lineInvalid c => exact ⟨_, execLine_notAligned c _ s', ha.symm⟩
  | @lineFails ax f m1 m2 v hne hf =>
    have hex := exec_lineAlong ax hne f v s'
    obtain ⟨k, g, hc, ⟨-, hk, hg, he⟩ | ⟨hn, -⟩ | ⟨hn, -⟩⟩ := drawSpan_cases ax f v m1 m2 hne s'
    · rw [he, hg, setGrid_same, hk] at hex
      exact ⟨_, hex, ha.symm⟩
    · exact absurd hf hn
    · exact absurd hf hn
  | @lineLeaves ax f m1 m2 v _ g hne hf hhi hk on off =>
    have hex := exec_lineAlong ax hne f v s'
    obtain ⟨k', g', hc, ⟨hn, -⟩ | ⟨-, -, hk', he⟩ | ⟨-, hlo, -⟩⟩ := drawSpan_cases ax f v m1 m2 hne s'
    · exact absurd hn hf
    · have hkk : k' = d := by omega
      rw [he, same hkk on off hc, hkk] at hex
      exact ⟨_, hex, arch_ext (by simp [h1, h2]) h2.symm h3.symm h4.symm⟩
    · omega
  | @lineOk ax f m1 m2 v _ g hne hf hhi hk on off =>
    have hex := exec_lineAlong ax hne f v s'
    obtain ⟨k', g', hc, ⟨hn, -⟩ | ⟨-, hlo, -⟩ | ⟨-, -, hk', he⟩⟩ := drawSpan_cases ax f v m1 m2 hne s'
    · exact absurd hn hf
    · omega
    · have hkk : k' = d := by omega
      rw [he, same hkk on off hc, hkk] at hex
      exact ⟨_, hex, arch_ext (by simp [h1, h2]) h2.symm h3.symm h4.symm⟩
  | selectOk c =>
    exact ⟨_, execSelect_ok c s', arch_ext (by simp [h1]) (by simp) (by simp [h3]) (by simp [h4])⟩
  | selectBad c => exact ⟨_, execSelect_bad c s', ha.symm⟩
  | rdcur =>
    rw [h2]
    exact ⟨s', rfl, ha.symm⟩
  | ser =>
    exact ⟨_, execSer_eq s', arch_ext (by simp [h1]) (by simp [h2]) (by simp) (by simp [h4, h1])⟩
  | deserOk c =>
    rw [h3] at c
    exact ⟨_, execDeser_ok c, arch_ext (by simp [h4]) (by simp [h2]) (by simp [h3]) (by simp [h4])⟩
  | deserBad c =>
    rw [h3] at c
    exact ⟨_, execDeser_bad c, ha.symm⟩
  | bwrOk c =>
    exact ⟨_, execBwr_ok c s', arch_ext (by simp [h1]) (by simp [h2]) (by simp [h3])
      (by simp [h4])⟩
  | bwrBad c => exact ⟨_, execBwr_bad c s', ha.symm⟩
  | brdOk c =>
    rw [h4]
    exact ⟨_, execBrd_ok c s', ha.symm⟩
  | brdBad c => exact ⟨_, execBrd_bad c s', ha.symm⟩
  | setlenOk c =>
    exact ⟨_, execSetlen_ok c s', arch_ext (by simp [h1]) (by simp [h2]) (by simp) (by simp [h4])⟩
  | setlenBad c => exact ⟨_, execSetlen_bad c s', ha.symm⟩
  | rdlen =>
    rw [h3]
    exact ⟨s', rfl, ha.symm⟩

/-- From two states with the same architectural state a command word answers the same status and data
and leaves the same architectural state (R43, R66). -/
theorem execWord_congr (w : CmdWord) {s s' : State} (ha : s.arch = s'.arch) :
    ∃ (t t' : State) (st : Status) (d : Nat), execWord w s = .next (t.respond st d) ∧
      execWord w s' = .next (t'.respond st d) ∧ t'.arch = t.arch := by
  cases hd : decode w with
  | error e => exact ⟨_, _, _, _, execWord_error hd s, execWord_error hd s', ha.symm⟩
  | ok i =>
    obtain ⟨t, st, d, h, e⟩ := exec_effect i s
    obtain ⟨t', h', ht⟩ := exec_congr e ha
    exact ⟨t, t', st, d, by rw [execWord_ok hd, h], by rw [execWord_ok hd, h'], ht⟩

theorem runWords_cons {w : CmdWord} {ws : List CmdWord} {s t : State} {st : Status} {d : Nat}
    (h : execWord w s = .next (t.respond st d)) :
    runWords (w :: ws) s =
      (runWords ws (t.respond st d)).map fun z => (z.1, responseWord st d :: z.2) := by
  simp [runWords, transact_next h]

/-- From two states with the same architectural state a list of command words answers the same
responses and leaves the same architectural state (R43, R152). -/
theorem runWords_congr {ws : List CmdWord} {s s' u : State} {rs : List RspWord}
    (ha : s.arch = s'.arch) (h : runWords ws s = some (u, rs)) :
    ∃ u', runWords ws s' = some (u', rs) ∧ u'.arch = u.arch := by
  induction ws generalizing s s' u rs with
  | nil =>
    simp only [runWords, Option.some.injEq, Prod.mk.injEq] at h
    obtain ⟨rfl, rfl⟩ := h
    exact ⟨s', rfl, ha.symm⟩
  | cons w ws ih =>
    obtain ⟨t, t', st, d, h1, h2, ht⟩ := execWord_congr w ha
    rw [runWords_cons h1, Option.map_eq_some_iff] at h
    obtain ⟨z, hz, he⟩ := h
    rw [Prod.mk.injEq] at he
    obtain ⟨rfl, rfl⟩ := he
    obtain ⟨u', hu, hua⟩ := ih (s := t.respond st d) (s' := t'.respond st d) ht.symm hz
    exact ⟨u', by rw [runWords_cons h2, hu]; rfl, hua⟩

end Sys2Proof.Machine
end

