-- ==== Sys2Proof/Tests/Slice0.lean ====
section
/-! SUPPORT. Tests of the model against spec/95_test_vectors.md and the examples in the rules, and, for
every statement with hypotheses, a witness that meets them. Expected values are the spec's. -/

namespace Sys2Proof.Tests

open Sys2Proof Sys2Proof.Machine Sys2Proof.Statements

/-! ### Helpers -/

/-- Tile 0 holds 3 at (3, 1), the rest of the block is as after reset. -/
def demo : State := { State.reset with ts := withTile State.reset.ts 0 (withCell State.reset.grid 3 1 3) }

/-- A state with these bytes in `BUF` and this `BLEN`. -/
def loaded (n : BitVec 14) (m : Memory) : State := { State.reset with blen := n, buf := m }

/-- A command in flight whose response is 0x000102, `wait` edges before `rsp_valid`, and the host's
pins at the next edge. -/
def flying (wait : Nat) (p : PortIn) : State :=
  { State.reset with rsp := some 0x000102, wait := wait, inputs := [p] }

/-- The response word of an outcome. -/
def answer (o : Outcome) : Option RspWord := (nextOf o).bind State.rsp

/-- A cell of the current tile after an outcome. -/
def cellAfter (o : Outcome) (x y : Fin 8) : Option Pixel := (nextOf o).map fun s => cellAt s.grid x y

/-- Every command answers a next state (used by the witnesses below). -/
theorem exec_next (i : Instr) (s : State) : ∃ t, exec i s = .next t := by
  obtain ⟨t, st, d, h, -⟩ := exec_effect i s
  exact ⟨_, h⟩

/-! ### Well-formedness: an operand that does not fit its field is refused (R55, R63) -/

theorem test_wf_refuses_get :
    (Instr.get 32768 0).wf = false ∧ (Instr.get 0 (-32769)).wf = false := by decide

theorem test_wf_refuses_set : (Instr.set (-32769) 0 0).wf = false ∧
    (Instr.set 0 32768 0).wf = false ∧ (Instr.set 0 0 32768).wf = false := by decide

theorem test_wf_refuses_line : (Instr.line 32768 0 0 0 0).wf = false ∧
    (Instr.line 0 32768 0 0 0).wf = false ∧ (Instr.line 0 0 (-32769) 0 0).wf = false ∧
    (Instr.line 0 0 0 32768 0).wf = false ∧ (Instr.line 0 0 0 0 (-32769)).wf = false := by decide

theorem test_wf_refuses_one_operand : (Instr.select 32768).wf = false ∧
    (Instr.brd 32768).wf = false ∧ (Instr.setlen (-32769)).wf = false := by decide

theorem test_wf_refuses_bwr :
    (Instr.bwr 32768 0).wf = false ∧ (Instr.bwr 0 (-32769)).wf = false := by decide

theorem test_wf_accepts_the_bounds : (Instr.line (-32768) 32767 (-32768) 32767 (-32768)).wf = true ∧
    Instr.clamp.wf = true := by decide

/-! ### Decoding: words printed in the spec (30_encoding.md R63, 95_test_vectors.md) -/

theorem test_decode_get : -- V-PG-10, V-PG-26
    decodeTableWord 96 0x000000000000000500030010 = some (.get 3 5) ∧
    decodeTableWord 96 0x000000000000000080000010 = some (.get (-32768) 0) := by decide

theorem test_decode_set : -- V-PG-9, V-PG-27
    decodeTableWord 96 0x000000000002000500030011 = some (.set 3 5 2) ∧
    decodeTableWord 96 0x000000007FFF000000000011 = some (.set 0 0 32767) := by decide

theorem test_decode_clamp : -- V-PG-28
    decodeTableWord 96 0x000000000000000000000012 = some .clamp := by decide

theorem test_decode_enc_dec : -- V-COD-1, V-COD-2
    decodeTableWord 96 0x000000000000000000000020 = some .enc ∧
    decodeTableWord 96 0x000000000000000000000021 = some .dec := by decide

theorem test_decode_line : -- S7, V-LINE-13
    decodeTableWord 96 0x000100060002000300020030 = some (.line 2 3 2 6 1) ∧
    decodeTableWord 96 0x000300067FFF000600000030 = some (.line 0 6 32767 6 3) := by decide

theorem test_decode_select_rdcur : -- S9, P4 step 10
    decodeTableWord 96 0x0000000000000000FFFF0040 = some (.select (-1)) ∧
    decodeTableWord 96 0x000000000000000000000041 = some .rdcur := by decide

theorem test_decode_ser_deser : -- P5 steps 5 and 14
    decodeTableWord 96 0x000000000000000000000042 = some .ser ∧
    decodeTableWord 96 0x000000000000000000000043 = some .deser := by decide

theorem test_decode_bwr_brd : -- P3 step 16, P5 step 10
    decodeTableWord 96 0x00000000000000A5000E0050 = some (.bwr 14 0xA5) ∧
    decodeTableWord 96 0x00000000000000000FF10051 = some (.brd 4081) := by decide

theorem test_decode_setlen_rdlen : -- P5 step 18, V-COD-3
    decodeTableWord 96 0x000000000000000010100052 = some (.setlen 4112) ∧
    decodeTableWord 96 0x000000000000000000000053 = some .rdlen := by decide

theorem test_decode_refuses : -- V-ILL-1 to V-ILL-19
    [0x000000000000000000000000, 0x0000000000000000000000FF, 0x000000000000000000000013,
      0x000000000000000000000112, 0x000000000000000000010012, 0x000100000000000000000010,
      0x000000010000000000000010, 0x000000000000000800000110, 0x00000000000000000000FF10,
      0x000100000000000000000011, 0x000000000001000000000040, 0x000000000001000000000051,
      0x000000010000000000000050, 0x000000000000000000010020, 0x000000000000000000010021,
      0x000000000000000000010041, 0x000000000000000000010042, 0x000000000000000000010043,
      0x000000000000000000010053].all (fun w => (decodeTableWord 96 w).isNone) = true := by decide

theorem test_decode_line_has_no_unused_field : -- V-ILL-20
    decodeTableWord 96 0x800000000000000000000030 = some (.line 0 0 0 0 (-32768)) := by decide

theorem test_encode_words : -- S4, S7, P3 step 18
    encode (.set 0 0 (-1)) = 0x00000000FFFF000000000011 ∧
    encode (.line 2 6 2 3 1) = 0x000100030002000600020030 ∧
    encode (.setlen 15) = 0x0000000000000000000F0052 := by decide

/-! ### One step of each command -/

theorem test_get_reads_column_then_row : -- V-PG-10, V-PG-11: x and y are not interchangeable
    answer (exec (.get 3 1) demo) = some 0x000300 ∧ answer (exec (.get 1 3) demo) = some 0 := by decide

theorem test_get_out_of_range : -- V-PG-21, V-PG-24
    answer (exec (.get 8 0) demo) = some 0x000002 ∧
    answer (exec (.get 0 (-1)) demo) = some 0x000002 := by decide

theorem test_set_writes : -- V-PG-9
    answer (exec (.set 3 5 2) State.reset) = some 0x000200 ∧
    cellAfter (exec (.set 3 5 2) State.reset) 3 5 = some 2 ∧
    cellAfter (exec (.set 3 5 2) State.reset) 5 3 = some 0 := by decide

theorem test_set_does_not_clamp_its_operand : -- V-PG-19, V-PG-27
    answer (exec (.set 0 0 4) demo) = some 0x000002 ∧
    answer (exec (.set 0 0 32767) demo) = some 0x000002 := by decide

theorem test_clamp : -- V-PG-28, V-PG-29
    answer (exec .clamp demo) = some 0 ∧ cellAfter (exec .clamp demo) 3 1 = some 3 := by decide

theorem test_clamp2 : -- 95_test_vectors.md section 2.1, last paragraph
    [-32768, -1, 0, 1, 2, 3, 4, 255].map clamp2 = [0, 0, 0, 1, 2, 3, 3, 3] := by decide

theorem test_enc_bit_order : -- row 1 = 0 0 0 3 0 0 0 0: column 3 is bit 4 of both planes (R32, R33)
    (nextOf (exec .enc demo)).map (fun s => (s.rsp, s.blen, s.buf)) =
      some (some 0, 16, [(2, 0x10), (3, 0x10)]) := by decide

theorem test_enc_planes : -- V-ROW-11: row 3 2 1 0 0 1 2 3 encodes to A5 C3
    [0, 1, 2, 3, 4, 5, 6, 7].map
      (fun x => (decodeCell 0xA5 0xC3 x).toNat) = [3, 2, 1, 0, 0, 1, 2, 3] := by decide

theorem test_dec_row : -- R82 example, V-ROW-2: 55 33 is row 0 1 2 3 0 1 2 3
    (nextOf (exec .dec (loaded 16 [(0, 0x55), (1, 0x33)]))).map
      (fun s => (List.finRange 8).map fun x => (cellAt s.grid x 0).toNat) =
      some [0, 1, 2, 3, 0, 1, 2, 3] := by decide

theorem test_dec_length : -- S5
    answer (exec .dec (loaded 15 [])) = some 0x000003 ∧
    answer (exec .dec (loaded 17 [])) = some 0x000003 := by decide

theorem test_line_stops_at_the_edge : -- V-LINE-11, V-LINE-14
    answer (exec (.line 2 5 2 9 1) State.reset) = some 0x000302 ∧
    cellAfter (exec (.line 2 5 2 9 1) State.reset) 2 7 = some 1 ∧
    answer (exec (.line (-32768) 1 7 1 1) State.reset) = some 0x000002 := by decide

theorem test_line_checks_the_axis_first : -- V-LINE-8, V-LINE-9
    answer (exec (.line 3 3 3 3 1) State.reset) = some 0x000004 ∧
    answer (exec (.line 1 1 4 4 9) State.reset) = some 0x000004 := by decide

theorem test_select : -- S9
    answer (exec (.select 255) State.reset) = some 0x00FF00 ∧
    answer (exec (.select 256) State.reset) = some 0x000002 ∧
    answer (exec (.select (-1)) State.reset) = some 0x000002 := by decide

theorem test_rdcur : -- P5 step 21, with `CUR` 1
    answer (exec .rdcur { State.reset with cur := 1 }) = some 0x000100 := by decide

theorem test_ser : -- R102, V-COD-3: `BLEN` becomes 4096; the image starts with tile 0
    (nextOf (exec .ser demo)).map (fun s => (s.rsp, s.blen)) = some (some 0, 4096) ∧
    (storeImage demo.ts).take 4 = [0x00, 0x00, 0x10, 0x10] := by decide

theorem test_deser : -- P5: bytes 30 and 31 are row 7 of tile 1, value 3 at x = 7
    (nextOf (exec .deser (loaded 4096 [(30, 0x01), (31, 0x01)]))).map
      (fun s => (s.rsp, cellAt (tileAt s.ts 1) 7 7, cellAt (tileAt s.ts 0) 7 7)) =
      some (some 0, 3, 0) := by decide +kernel

theorem test_deser_length : -- P5 steps 17 and 19
    answer (exec .deser (loaded 4080 [])) = some 0x000003 ∧
    answer (exec .deser (loaded 4112 [])) = some 0x000003 := by decide

theorem test_bwr_writes : -- R110: address 8191 is the last one, writing 00 removes the entry
    (nextOf (exec (.bwr 8191 255) State.reset)).map (fun s => (s.rsp, s.buf)) =
      some (some 0, [(8191, 0xFF)]) ∧
    (nextOf (exec (.bwr 3 0) (loaded 0 [(3, 7)]))).map (fun s => s.buf) = some [] := by decide

theorem test_bwr_refuses : -- V-BUF-11, R110
    answer (exec (.bwr 0 (-1)) State.reset) = some 0x000002 ∧
    answer (exec (.bwr 0 256) State.reset) = some 0x000002 ∧
    answer (exec (.bwr 8192 0) State.reset) = some 0x000002 := by decide

theorem test_brd : -- V-COD-8, V-BUF-12: `BLEN` does not limit it
    answer (exec (.brd 2) (loaded 0 [(2, 0x80)])) = some 0x008000 ∧
    answer (exec (.brd 8192) State.reset) = some 0x000002 := by decide

theorem test_setlen : -- V-BUF-14, V-BUF-16
    answer (exec (.setlen 8192) State.reset) = some 0x200000 ∧
    answer (exec (.setlen 8193) State.reset) = some 0x000002 := by decide

theorem test_rdlen : -- V-COD-3, V-BUF-15
    answer (exec .rdlen (loaded 16 [])) = some 0x001000 ∧
    answer (exec .rdlen (loaded 8192 [])) = some 0x200000 := by decide

/-! ### The step -/

theorem test_step_runs_the_offered_word : -- V-LINE-11
    answer (step (State.reset.withFetchWord 96 0x000100090002000500020030)) = some 0x000302 := by decide

theorem test_step_illegal_word : -- V-ILL-8: IllegalCommand, not OutOfRange
    answer (step (State.reset.withFetchWord 96 0x000000000000000800000110)) = some 0x000005 := by decide

theorem test_step_delivers : -- R51
    (nextOf (step (flying 0 takePins))).map (fun s => (s.rsp, s.delivered)) =
      some (none, [0x000102]) := by decide

theorem test_step_reset_withdraws : -- R142
    (nextOf (step (flying 0 { takePins with rst := true }))).map (fun s => (s.rsp, s.delivered)) =
      some (none, []) := by decide

/-! ### The assembler (R63, R64) -/

theorem test_assemble :
    assembleLine ['S', 'E', 'T', ' ', '2', ',', ' ', '3', ',', ' ', '1'] = some (.set 2 3 1) ∧
    assembleLine ['B', 'W', 'R', ' ', '0', ',', ' ', '0', 'x', 'F', '0'] = some (.bwr 0 0xF0) ∧
    assembleLine ['S', 'E', 'L', 'E', 'C', 'T', ' ', '-', '1'] = some (.select (-1)) ∧
    assembleLine ['C', 'L', 'A', 'M', 'P', ';', 'x'] = some .clamp := by decide

theorem test_assemble_refuses :
    assembleLine ['S', 'E', 'L', 'E', 'C', 'T', ' ', '3', '2', '7', '6', '8'] = none ∧
    assembleLine ['G', 'E', 'T', ' ', '1'] = none := by decide

theorem test_expand : expandPseudo (.load [5, 6]) = [.bwr 0 5, .bwr 1 6, .setlen 2, .deser] ∧
    expandPseudo (.bdump 3 2) = [.brd 3, .brd 4] := by decide

/-! ### Witnesses: for every statement with hypotheses, values that meet them

A witness `witness_X` belongs to the statement `Obligations.X`. Where a statement has several clauses
each has its values here, at the bounds of its range. -/

theorem witness_DecodeOfEncodeIsTheCommand :
    (Instr.line (-32768) 32767 (-32768) 32767 (-1)).wf = true := by decide

theorem witness_DecodingIsInjectiveOnLegalWords :
    decode 0x800000000000000000000030 = .ok (.line 0 0 0 0 (-32768)) := by decide

theorem witness_LegalWordMatchesOneRow :
    decode 0x000000000000000700070010 = .ok (.get 7 7) := by decide

theorem witness_OpcodeRowsAreDisjoint :
    (0x000000000000000700070010 : CmdWord) &&& maskOf .get = matchOf .get := by decide

theorem witness_ResetEdgeGivesTheResetState :
    (flying 0 { takePins with rst := true }).pins.rst = true := by decide

theorem witness_ResetEdgeDeliversNothing :
    (flying 0 { takePins with rst := true }).pins.rst = true ∧
    (flying 3 { takePins with rst := true }).pins.rst = true := by decide

/-- A list of samples of every length, from a host whose pins vary from edge to edge. -/
theorem witness_ReadyAfterResetInFiniteTime :
    ({ takePins with rst := true } : PortIn).rst = true ∧
    ∀ n, ∃ pins : List PortIn, pins.length = n ∧ ∀ q ∈ pins, q.rst = false := by
  refine ⟨by decide, fun n => ⟨(List.range n).map fun k => offerPins (BitVec.ofNat 96 k), by simp, ?_⟩⟩
  simp [offerPins]

theorem witness_StepRunsTheOfferedCommand :
    let s := State.reset.withFetchWord 96 0x000000000000000700070010
    s.pins.rst = false ∧ s.cmdReady = true ∧ s.pins.cmdValid = true ∧
      decode s.pins.cmdWord = .ok (.get 7 7) := by decide

/-- The all-zero word (V-ILL-1), GET with `rsv` 0xFF (V-ILL-9), GET with E = 1 (V-ILL-6), and a legal
LINE with every field used (V-ILL-20). -/
theorem witness_IllegalWordAnswersIllegalCommand :
    (0 : CmdWord).extractLsb' 0 8 ∉ fourteenOpcodes ∧
    (0x00000000000000000000FF10 : CmdWord).extractLsb' 8 8 ≠ 0 ∧
    (¬∃ o, (0x000100000000000000000010 : CmdWord) &&& maskOf o = matchOf o) ∧
    ∃ o, (0x800000000000000000000030 : CmdWord) &&& maskOf o = matchOf o := by
  refine ⟨by decide, by decide, ?_, .line, by decide⟩
  rintro ⟨o, h⟩
  revert h
  cases o <;> decide

/-- An idle host, and a host that offers a word while a delay keeps the block from accepting it. -/
theorem witness_BlockNeverActsOnItsOwn :
    (State.reset.pins.rst = false ∧ State.reset.rsp = none ∧
      (State.reset.pins.cmdValid && State.reset.cmdReady) = false) ∧
    let s : State := { State.reset with wait := 1, inputs := [offerPins 0x12] }
    s.pins.rst = false ∧ s.rsp = none ∧ s.pins.cmdValid = true ∧
      (s.pins.cmdValid && s.cmdReady) = false := by decide

/-- Taken, held by the host, and not yet valid. -/
theorem witness_ResponseIsHeldUntilTaken :
    ((flying 0 takePins).pins.rst = false ∧ (flying 0 takePins).rsp = some 0x000102 ∧
      (flying 0 takePins).rspValid = true ∧ (flying 0 takePins).pins.rspReady = true) ∧
    ((flying 0 idlePins).pins.rst = false ∧ (flying 0 idlePins).rspValid = true ∧
      (flying 0 idlePins).pins.rspReady = false) ∧
    ((flying 1 takePins).pins.rst = false ∧ (flying 1 takePins).rspValid = false) := by decide

theorem witness_AcceptedCommandIsAnsweredOnce : State.reset.cmdReady = true := by decide

/-- Two states that differ in everything but the architectural state. -/
theorem witness_CommandSeesOnlyArchitecturalState :
    State.reset.arch = (flying 1 takePins).arch ∧ State.reset ≠ flying 1 takePins := by
  refine ⟨rfl, fun h => ?_⟩
  have := congrArg State.wait h
  revert this
  decide

/-- A run in which a word is accepted, and a ready block. -/
theorem witness_SignalLevelRefinesTransactionLevel :
    ((∀ p ∈ (State.reset.withFetchWord 96 0x12).inputs.take 1, p.rst = false) ∧
      acceptedWords 1 (State.reset.withFetchWord 96 0x12) = [0x000000000000000000000012] ∧
      ∃ t, edges 1 (State.reset.withFetchWord 96 0x12) = some t) ∧ State.reset.cmdReady = true :=
  ⟨⟨by decide, by decide, _, rfl⟩, by decide⟩

theorem witness_EveryStepKeepsTheInvariant :
    Inv State.reset ∧ ∃ t, step State.reset = .next t :=
  ⟨⟨rfl, by decide, fun r h => (by cases h), fun r h => (by cases h)⟩, _, rfl⟩

theorem witness_ClampFunctionForcesIntoRange :
    (3 : Int) < 4 ∧ (-1 : Int) < 0 ∧ (0 : Int) ≤ 0 ∧ (0 : Int) ≤ 3 ∧ (3 : Int) ≤ 3 := by decide

/-- The last coordinate in range is none of the refused ones; the first out of range are. -/
theorem witness_GetReadsOneCell :
    ¬¬((0 : Int) ≤ 7 ∧ (7 : Int) ≤ 7 ∧ (0 : Int) ≤ 0 ∧ (0 : Int) ≤ 7) ∧
    ¬((0 : Int) ≤ 8 ∧ (8 : Int) ≤ 7 ∧ (0 : Int) ≤ 0 ∧ (0 : Int) ≤ 7) ∧
    ¬((0 : Int) ≤ 0 ∧ (0 : Int) ≤ 7 ∧ (0 : Int) ≤ -1 ∧ (-1 : Int) ≤ 7) ∧
    (0x000000000000000700070010 : CmdWord) &&& 0xFFFFFFFFFFFF00000000FFFF =
      0x000000000000000000000010 := by decide

theorem witness_SetWritesOneCell :
    ¬((0 : Int) ≤ 4 ∧ (4 : Int) ≤ 3 ∧ (0 : Int) ≤ 7 ∧ (7 : Int) ≤ 7 ∧ (0 : Int) ≤ 7 ∧ (7 : Int) ≤ 7) ∧
    ¬((0 : Int) ≤ 3 ∧ (3 : Int) ≤ 3 ∧ (0 : Int) ≤ -1 ∧ (-1 : Int) ≤ 7 ∧ (0 : Int) ≤ 7 ∧
      (7 : Int) ≤ 7) ∧
    ¬((0 : Int) ≤ 3 ∧ (3 : Int) ≤ 3 ∧ (0 : Int) ≤ 7 ∧ (7 : Int) ≤ 7 ∧ (0 : Int) ≤ 8 ∧
      (8 : Int) ≤ 7) ∧
    (0x000000000003000700070011 : CmdWord) &&& 0xFFFFFFFF000000000000FFFF =
      0x000000000000000000000011 := by decide

theorem witness_ClampChangesNothing :
    (0x000000000000000000000012 : CmdWord) &&& 0xFFFFFFFFFFFFFFFFFFFFFFFF =
      0x000000000000000000000012 := by decide

/-- A SET that succeeds, a cell other than the one it writes, and a GET and a SET that fail. -/
theorem witness_PixelGridProperties :
    (∃ t, Answers (.set 7 0 3) State.reset 0 3 t) ∧
    (¬((0 : BitVec 8) = State.reset.cur ∧ ((0 : Fin 8).val : Int) = 7 ∧ ((0 : Fin 8).val : Int) = 0)) ∧
    (∃ t, exec (.get 8 0) State.reset = .next t ∧ t.rsp.map rspStatus ≠ some 0) ∧
    ∃ t, exec (.set 0 0 4) State.reset = .next t ∧ t.rsp.map rspStatus ≠ some 0 :=
  ⟨⟨_, execSet_ok (by decide) _, by simp only [respond_rsp]; decide, rfl, rfl⟩, by decide,
    ⟨_, execGet_bad (by decide) _, by simp only [respond_rsp]; decide⟩,
    ⟨_, execSet_bad (by decide) _, by simp only [respond_rsp]; decide⟩⟩

theorem witness_EncodeTileBytesByPlane : 2 * (7 : Fin 8).val < 16 ∧ 2 * (7 : Fin 8).val + 1 < 16 := by
  decide

theorem witness_DecodeTileCellsFromPlanes :
    2 * (7 : Fin 8).val < 16 ∧ 2 * (7 : Fin 8).val + 1 < 16 := by decide

theorem witness_EncWritesTheEncodedTile : (loaded 16 [(0, 1), (8191, 2)]).buf.wf = true ∧ 16 ≤ 16 ∧
    (0x000000000000000000000020 : CmdWord) &&& 0xFFFFFFFFFFFFFFFFFFFFFFFF =
      0x000000000000000000000020 := by decide

theorem witness_EncOutputIsTheTileAlone :
    demo.buf.wf = true ∧ (loaded 16 [(0, 1)]).buf.wf = true ∧ (∃ t, exec .enc demo = .next t) ∧
    ∃ t, exec .enc (loaded 16 [(0, 1)]) = .next t :=
  ⟨rfl, rfl, exec_next _ _, exec_next _ _⟩

/-- `BLEN` 16, and the two lengths beside it; another tile than the current one. -/
theorem witness_DecReplacesTheTileOrNothing :
    (loaded 16 [(0, 0x55)]).blen = 16 ∧ (loaded 15 []).blen ≠ 16 ∧ (loaded 17 []).blen ≠ 16 ∧
    (1 : BitVec 8) ≠ (loaded 16 [(0, 0x55)]).cur ∧
    (0x000000000000000000000021 : CmdWord) &&& 0xFFFFFFFFFFFFFFFFFFFFFFFF =
      0x000000000000000000000021 := by decide

theorem witness_EncDecRoundTrip :
    (loaded 16 [(0, 0x55)]).buf.wf = true ∧ (loaded 16 [(0, 0x55)]).blen = 16 := by decide

/-- A single point and a diagonal. -/
theorem witness_LineNotAxisAlignedIsRefused :
    ¬Xor ((3 : Int) = 3) ((3 : Int) = 3) ∧ ¬Xor ((1 : Int) = 4) ((1 : Int) = 4) := by
  simp [Xor]

/-- The three rows of R95's table for moving coordinates 0 and 7, 0 and 8, and -1 and 7, and for a
value out of range. -/
theorem witness_LineMeetsItsClosedForm :
    ((0 : Int) ≠ 7 ∧ ¬(7 : Int) < max 0 7) ∧ ((0 : Int) ≠ 8 ∧ (7 : Int) < max 0 8) ∧
    ((-1 : Int) ≠ 7 ∧ min (-1 : Int) 7 < 0) ∧ (3 : Int) < 4 ∧ ¬Xor ((3 : Int) = 3) ((3 : Int) = 3) ∧
    (0x000200030004000500060030 : CmdWord) &&& 0x00000000000000000000FFFF =
      0x000000000000000000000030 := by decide

theorem witness_SelectSetsTheCurrentTile :
    ¬((0 : Int) ≤ 256 ∧ (256 : Int) ≤ 255) ∧ ¬((0 : Int) ≤ -1 ∧ (-1 : Int) ≤ 255) ∧
    (0x000000000000000000FF0040 : CmdWord) &&& 0xFFFFFFFFFFFFFFFF0000FFFF =
      0x000000000000000000000040 := by decide

theorem witness_RdcurReadsTheCurrentTile :
    (0x000000000000000000000041 : CmdWord) &&& 0xFFFFFFFFFFFFFFFFFFFFFFFF =
      0x000000000000000000000041 := by decide

theorem witness_SerWritesTheStoreImage : (loaded 0 [(4096, 1)]).buf.wf = true ∧ 4096 ≤ 4096 ∧
    (0x000000000000000000000042 : CmdWord) &&& 0xFFFFFFFFFFFFFFFFFFFFFFFF =
      0x000000000000000000000042 := by decide

theorem witness_DecRightAfterSerFails :
    demo.buf.wf = true ∧ ∃ t, exec .ser demo = .next t :=
  ⟨rfl, exec_next _ _⟩

theorem witness_DeserReplacesTheStoreOrNothing :
    (loaded 4096 [(30, 1)]).blen = 4096 ∧ (loaded 4095 []).blen ≠ 4096 ∧
    (loaded 4097 []).blen ≠ 4096 ∧
    (0x000000000000000000000043 : CmdWord) &&& 0xFFFFFFFFFFFFFFFFFFFFFFFF =
      0x000000000000000000000043 := by decide

theorem witness_SerDeserRoundTrip :
    (loaded 4096 [(4095, 1)]).buf.wf = true ∧ (loaded 4096 [(4095, 1)]).blen = 4096 ∧
    (∃ t, exec .ser (loaded 4096 [(4095, 1)]) = .next t) ∧
    ∃ z, runInstrs [.select ((255 : BitVec 8).toNat : Int), .enc] (loaded 4096 [(4095, 1)]) = some z :=
  ⟨by decide, rfl, exec_next _ _, _, by
    rw [runInstrs_cons (execSelect_ok (by decide) _), runInstrs_cons (execEnc_eq _)]
    rfl⟩

theorem witness_BwrWritesOneByte :
    State.reset.buf.wf = true ∧ (0 : Int) ≤ 8191 ∧ (8191 : Int) ≤ 8191 ∧ (0 : Int) ≤ 255 ∧
    (255 : Int) ≤ 255 ∧
    ¬((0 : Int) ≤ 8192 ∧ (8192 : Int) ≤ 8191 ∧ (0 : Int) ≤ 0 ∧ (0 : Int) ≤ 255) ∧
    ¬((0 : Int) ≤ 0 ∧ (0 : Int) ≤ 8191 ∧ (0 : Int) ≤ 256 ∧ (256 : Int) ≤ 255) ∧
    (0x00000000000000FF1FFF0050 : CmdWord) &&& 0xFFFFFFFFFFFF00000000FFFF =
      0x000000000000000000000050 := by decide

theorem witness_BrdReadsOneByte :
    8191 < 8192 ∧ ¬((0 : Int) ≤ 8192 ∧ (8192 : Int) ≤ 8191) ∧
    ¬((0 : Int) ≤ -1 ∧ (-1 : Int) ≤ 8191) ∧
    (0x00000000000000001FFF0051 : CmdWord) &&& 0xFFFFFFFFFFFFFFFF0000FFFF =
      0x000000000000000000000051 := by decide

theorem witness_SetlenSetsTheLength :
    8192 ≤ 8192 ∧ ¬((0 : Int) ≤ 8193 ∧ (8193 : Int) ≤ 8192) ∧
    ¬((0 : Int) ≤ -1 ∧ (-1 : Int) ≤ 8192) ∧
    (0x000000000000000020000052 : CmdWord) &&& 0xFFFFFFFFFFFFFFFF0000FFFF =
      0x000000000000000000000052 := by decide

theorem witness_RdlenReadsTheLength :
    (0x000000000000000000000053 : CmdWord) &&& 0xFFFFFFFFFFFFFFFFFFFFFFFF =
      0x000000000000000000000053 := by decide

/-- ENC, SER and BWR with the first byte each does not store to. -/
theorem witness_UnstoredBytesReadAsBefore :
    demo.buf.wf = true ∧ ((∃ t, exec .enc demo = .next t) ∧ ¬storesByte .enc 16) ∧
    ((∃ t, exec .ser demo = .next t) ∧ ¬storesByte .ser 4096) ∧
    ((∃ t, exec (.bwr 5 1) demo = .next t) ∧ ¬storesByte (.bwr 5 1) 6) ∧
    (∃ t, exec .dec demo = .next t) ∧ ¬storesByte .dec 0 :=
  ⟨rfl, ⟨exec_next _ _, by simp [storesByte]⟩, ⟨exec_next _ _, by simp [storesByte]⟩,
    ⟨exec_next _ _, by simp [storesByte, addrOf]⟩, exec_next _ _, by simp [storesByte]⟩

/-- SET, LINE and DEC with a cell each does not write. -/
theorem witness_UnwrittenCellsHoldTheirValue :
    ((∃ t, exec (.set 3 1 0) demo = .next t) ∧ ¬mayWriteCell (.set 3 1 0) demo 0 1 3) ∧
    ((∃ t, exec (.line 2 3 2 6 1) demo = .next t) ∧ ¬mayWriteCell (.line 2 3 2 6 1) demo 0 2 7) ∧
    (∃ t, exec .dec (loaded 16 []) = .next t) ∧ ¬mayWriteCell .dec (loaded 16 []) 1 0 0 :=
  ⟨⟨exec_next _ _, by simp [mayWriteCell]⟩, ⟨exec_next _ _, by simp [mayWriteCell]⟩,
    exec_next _ _, by simp only [mayWriteCell]; decide⟩

theorem witness_RegistersKeepTheirValue :
    (∃ t, exec (.setlen 5) demo = .next t) ∧ (∀ n, Instr.setlen 5 ≠ .select n) ∧
    (∃ t, exec (.select 5) demo = .next t) ∧ (∀ n, Instr.select 5 ≠ .setlen n) ∧
    Instr.select 5 ≠ .enc ∧ Instr.select 5 ≠ .ser :=
  ⟨exec_next _ _, by simp, exec_next _ _, by simp, by simp, by simp⟩

theorem witness_RepeatingACommandChangesNothingMore :
    (onlyReads (.get 0 0) ∧ ∃ t, exec (.get 0 0) demo = .next t) ∧ demo.buf.wf = true ∧
    ∃ t u, exec .enc demo = .next t ∧ exec .enc t = .next u := by
  obtain ⟨t, ht⟩ := exec_next .enc demo
  obtain ⟨u, hu⟩ := exec_next .enc t
  exact ⟨⟨trivial, exec_next _ _⟩, rfl, t, u, ht, hu⟩

theorem witness_OnlyTheListedStatusesOccur : ∃ t, execWord 0 demo = .next t := ⟨_, rfl⟩

/-- A LINE that leaves the tile after its last cell, and one that fails at once. -/
theorem witness_OutOfRangeExactlyAsListed :
    (∃ t r, exec (.line 2 7 2 8 1) demo = .next t ∧ t.rsp = some r ∧ rspStatus r = 2) ∧
    (∃ t r, exec (.line 8 0 8 1 1) demo = .next t ∧ t.rsp = some r ∧ rspStatus r = 2) ∧
    (∃ t r, exec (.brd 8192) demo = .next t ∧ t.rsp = some r ∧ rspStatus r = 2) ∧
    ∀ x1 y1 x2 y2 v, Instr.brd 8192 ≠ .line x1 y1 x2 y2 v :=
  ⟨⟨_, _, execLine_vertical (by decide) 2 1 demo, rfl, by decide⟩,
    ⟨_, _, execLine_vertical (by decide) 8 1 demo, rfl, by decide⟩,
    ⟨_, _, execBrd_bad (by decide) demo, rfl, by decide⟩, by simp⟩

theorem witness_FormatErrorExactlyAsListed :
    ∃ t r, exec .dec (loaded 15 []) = .next t ∧ t.rsp = some r ∧ rspStatus r = 3 :=
  ⟨_, _, execDec_bad (by decide), rfl, by decide⟩

theorem witness_ValidationErrorExactlyAsListed :
    ∃ t r, exec (.line 3 3 3 3 1) demo = .next t ∧ t.rsp = some r ∧ rspStatus r = 4 :=
  ⟨_, _, execLine_notAligned (by decide) 1 demo, rfl, by decide⟩

theorem witness_IllegalCommandExactlyAsListed :
    ∃ t r, execWord 0 demo = .next t ∧ t.rsp = some r ∧ rspStatus r = 5 :=
  ⟨_, _, rfl, rfl, by decide⟩

theorem witness_FailingCommandsChangeNothing :
    ∃ t r, execWord 0x000000000000000000080010 demo = .next t ∧ t.rsp = some r ∧ rspStatus r ≠ 0 :=
  ⟨_, _, rfl, rfl, by decide⟩

theorem witness_GettileReturnsWhatPuttilePut : demo.buf.wf = true := rfl

theorem witness_LoadRestoresWhatSaveReturned :
    demo.buf.wf = true ∧ (loaded 5 [(0, 1)]).buf.wf = true := by decide

end Sys2Proof.Tests
end

section
/-! PROOFS. The functions of 00_scope.md: `clamp2` (R5) and the codec of one tile (R7 to R9). -/

namespace Sys2Proof.Machine

open Sys2Proof Sys2Proof.Statements

/-! ### `clamp2` -/

theorem clamp2_of_gt {v : Int} (h : 3 < v) : clamp2 v = 3 := if_pos h

theorem clamp2_of_neg {v : Int} (h : v < 0) : clamp2 v = 0 := by
  rw [clamp2, if_neg (by omega), if_pos h]

theorem clamp2_mem_range (v : Int) : 0 ≤ clamp2 v ∧ clamp2 v ≤ 3 := by
  rcases lt_or_ge 3 v with hgt | hle
  · simp [clamp2_of_gt hgt]
  · rcases lt_or_ge v 0 with hneg | hnonneg
    · simp [clamp2_of_neg hneg]
    · rw [clamp2_of_inRange hnonneg hle]
      exact ⟨hnonneg, hle⟩

/-- Settles O20: the result is in [0,3], where `clamp2` is the identity. -/
theorem clampFunctionForcesIntoRange : Obligations.ClampFunctionForcesIntoRange := by
  intro v
  obtain ⟨h0, h3⟩ := clamp2_mem_range v
  exact ⟨clamp2_of_gt, clamp2_of_neg, clamp2_of_inRange, h0, h3, clamp2_of_inRange h0 h3⟩

/-! ### The bytes of `encode_tile` (R7) -/

/-- The eight weights of R7 add up to 255, so `planeByte` drops no bit of the sum. -/
theorem planeSum_lt (g : Grid) (p : Nat) (y : Fin 8) : planeSum g p y < 256 := by
  have hbit (x : Fin 8) : (((cellAt g x y).toNat >>> p) &&& 1) <<< (7 - x.val) ≤
      1 <<< (7 - x.val) := by
    rw [Nat.shiftLeft_eq, Nat.shiftLeft_eq]
    exact Nat.mul_le_mul_right _ Nat.and_le_right
  calc planeSum g p y ≤ ∑ x : Fin 8, 1 <<< (7 - x.val) := Finset.sum_le_sum fun x _ => hbit x
    _ < 256 := by decide

theorem planeByte_toNat (g : Grid) (p : Nat) (y : Fin 8) :
    (planeByte g p y).toNat = planeSum g p y := by
  have hsum : planeByte g p y = BitVec.ofNat 8 (planeSum g p y) := by
    rw [planeByte, planeSum, Fin.sum_univ_def]
  rw [hsum, BitVec.toNat_ofNat, Nat.mod_eq_of_lt (planeSum_lt g p y)]

/-- Settles O25: the two bytes of a row are its plane bytes, and a plane byte is its sum. -/
theorem encodeTileBytesByPlane : Obligations.EncodeTileBytesByPlane := by
  intro g y _ _
  rw [encodeTile_low, encodeTile_high]
  exact ⟨planeByte_toNat g 0 y, planeByte_toNat g 1 y⟩

/-! ### The cells of `decode_tile` (R8) -/

theorem pixelFrom_lt (lo hi : Byte) (x : Fin 8) : pixelFrom lo hi x < 4 := by
  have hlow : (lo.toNat >>> (7 - x.val)) &&& 1 ≤ 1 := Nat.and_le_right
  have hhigh : (hi.toNat >>> (7 - x.val)) &&& 1 ≤ 1 := Nat.and_le_right
  exact Nat.or_lt_two_pow (n := 2) (by omega) (by omega)

/-- The 2-bit cell loses nothing of the formula of R8. -/
theorem decodeCell_toNat (lo hi : Byte) (x : Fin 8) :
    (decodeCell lo hi x).toNat = pixelFrom lo hi x := by
  have hhigh : (hi.toNat >>> (7 - x.val)) &&& 1 ≤ 1 := Nat.and_le_right
  have hshift : (((hi.toNat >>> (7 - x.val)) &&& 1) <<< 1) % 256 =
      ((hi.toNat >>> (7 - x.val)) &&& 1) <<< 1 := Nat.mod_eq_of_lt (by omega)
  calc (decodeCell lo hi x).toNat
      = (((lo.toNat >>> (7 - x.val)) &&& 1) |||
          (((hi.toNat >>> (7 - x.val)) &&& 1) <<< 1) % 256) % 4 := by
        simp only [decodeCell, BitVec.toNat_setWidth, BitVec.toNat_or, BitVec.toNat_and,
          BitVec.toNat_ushiftRight, BitVec.toNat_shiftLeft, Nat.reducePow]
        rfl
    _ = pixelFrom lo hi x % 4 := by rw [hshift, pixelFrom]
    _ = pixelFrom lo hi x := Nat.mod_eq_of_lt (pixelFrom_lt lo hi x)

/-- Settles O26: a cell of a decoded tile is the decoded cell of its two plane bytes. -/
theorem decodeTileCellsFromPlanes : Obligations.DecodeTileCellsFromPlanes := by
  intro b x y _ _
  rw [cellAt_decodeTile, decodeCell_toNat]

/-! ### The codec functions are inverse to each other (R9) -/

/-- Two bytes with the same bit at the place of every column (R33) are equal. -/
theorem byte_ext_columns {a b : Byte}
    (same : ∀ x : Fin 8, a.getLsbD (7 - x.val) = b.getLsbD (7 - x.val)) : a = b := by
  apply BitVec.eq_of_getLsbD_eq
  intro i hi
  have h := same ⟨7 - i, by omega⟩
  rwa [show 7 - (7 - i) = i by omega] at h

/-- Two byte sequences of one tile with the same two bytes in every row (R32) are equal. -/
theorem tileBytes_ext {a b : Vector Byte 16}
    (low : ∀ y : Fin 8, a[2 * y.val]'(by omega) = b[2 * y.val]'(by omega))
    (high : ∀ y : Fin 8, a[2 * y.val + 1]'(by omega) = b[2 * y.val + 1]'(by omega)) : a = b := by
  apply Vector.ext
  intro i hi
  obtain ⟨y, rfl | rfl⟩ : ∃ y, i = 2 * y ∨ i = 2 * y + 1 := ⟨i / 2, by omega⟩
  · exact low ⟨y, by omega⟩
  · exact high ⟨y, by omega⟩

/-- Decoding the two plane bytes of a row gives the cell they were packed from. -/
theorem decodeCell_planeByte (g : Grid) (x y : Fin 8) :
    decodeCell (planeByte g 0 y) (planeByte g 1 y) x = cellAt g x y := by
  obtain ⟨hlow, hhigh⟩ := decodeCell_bits (planeByte g 0 y) (planeByte g 1 y) x
  exact pixel_ext (hlow.trans (planeByte_getLsbD g 0 y x)) (hhigh.trans (planeByte_getLsbD g 1 y x))

theorem decodeTile_encodeTile (g : Grid) : decodeTile (encodeTile g) = g := by
  refine grid_ext fun x y => ?_
  rw [cellAt_decodeTile, encodeTile_low, encodeTile_high, decodeCell_planeByte]

/-- Packing a plane of a decoded tile gives back the bytes of that plane. -/
theorem planeByte_decodeTile (b : Vector Byte 16) (y : Fin 8) :
    planeByte (decodeTile b) 0 y = b[2 * y.val]'(by omega) ∧
      planeByte (decodeTile b) 1 y = b[2 * y.val + 1]'(by omega) := by
  constructor
  · refine byte_ext_columns fun x => ?_
    rw [planeByte_getLsbD, cellAt_decodeTile, (decodeCell_bits _ _ x).1]
  · refine byte_ext_columns fun x => ?_
    rw [planeByte_getLsbD, cellAt_decodeTile, (decodeCell_bits _ _ x).2]

theorem encodeTile_decodeTile (b : Vector Byte 16) : encodeTile (decodeTile b) = b :=
  tileBytes_ext
    (fun y => (encodeTile_low _ y).trans (planeByte_decodeTile b y).1)
    (fun y => (encodeTile_high _ y).trans (planeByte_decodeTile b y).2)

/-- Settles O27, cell by cell for grids and byte by byte for byte sequences. -/
theorem codecFunctionsAreInverse : Obligations.CodecFunctionsAreInverse :=
  ⟨decodeTile_encodeTile, encodeTile_decodeTile⟩

end Sys2Proof.Machine
end

section
/-! PROOFS. The family 10_state.md: the reset state (R23), the frames of the pixel space and of the
registers (R14, R15, R17, R31), and the invariant of every step (R16, R17, R57, R120, R122). -/

namespace Sys2Proof.Machine

open Sys2Proof Sys2Proof.Statements

/-! ### The reset state (R23) -/

@[simp] theorem cellAt_replicate (v : Pixel) (x y : Fin 8) :
    cellAt (Vector.replicate 8 (Vector.replicate 8 v)) x y = v := by
  simp [cellAt]

@[simp] theorem tileAt_replicate (g : Grid) (n : BitVec 8) :
    tileAt (Vector.replicate 256 g) n = g := by
  simp [tileAt]

/-- Settles O6: the cells are read from replicated vectors, the bytes from the empty list. -/
theorem resetStateHoldsTheResetValues : Obligations.ResetStateHoldsTheResetValues := by
  have hcells (n : BitVec 8) (x y : Fin 8) : cellAt (tileAt State.reset.ts n) x y = 0 := by
    simp [State.reset]
  exact ⟨hcells, rfl, rfl, fun a _ => Memory.read_nil a, rfl, rfl⟩

/-- Settles O18: nothing is listed in `BUF`, `BLEN` is 0 and there is no response. -/
theorem resetStateIsSafe : Obligations.ResetStateIsSafe where
  bufCanonical := Memory.wf_nil
  blenLegal := Nat.zero_le _
  pendingLegal _ h := by cases h
  deliveredLegal _ h := by cases h

/-! ### The frame of the registers (R15, R17) -/

/-- `CUR` is written by SELECT alone. -/
theorem Effect.cur_eq {s t : State} {i : Instr} {st : Status} {d : Nat} (h : Effect s i t st d)
    (hi : ∀ n, i ≠ .select n) : t.cur = s.cur := by
  cases h with
  | selectOk _ => exact absurd rfl (hi _)
  | _ => simp

/-- `BLEN` is written by SETLEN, ENC and SER alone. -/
theorem Effect.blen_eq {s t : State} {i : Instr} {st : Status} {d : Nat} (h : Effect s i t st d)
    (hsetlen : ∀ n, i ≠ .setlen n) (henc : i ≠ .enc) (hser : i ≠ .ser) : t.blen = s.blen := by
  cases h with
  | setlenOk _ => exact absurd rfl (hsetlen _)
  | enc => exact absurd rfl henc
  | ser => exact absurd rfl hser
  | _ => simp

/-- Settles O47, by the effect of the command: responding changes none of these fields. -/
theorem registersKeepTheirValue : Obligations.RegistersKeepTheirValue := by
  intro i s u hexec
  obtain ⟨t, st, d, rfl, heff⟩ := effect_of_exec hexec
  obtain ⟨-, -, -, hinputs, hdelivered, -, -⟩ := effect_ports heff
  exact ⟨heff.cur_eq, heff.blen_eq, hinputs, hdelivered⟩

/-! ### The frame of the pixel space (R14, R31) -/

/-- Reading a cell after the current tile was replaced. -/
theorem cellAt_setGrid (s : State) (g : Grid) (n : BitVec 8) (x y : Fin 8) :
    cellAt (tileAt (s.setGrid g).ts n) x y =
      if n = s.cur then cellAt g x y else cellAt (tileAt s.ts n) x y := by
  rw [setGrid_ts, tileAt_withTile]
  split <;> rfl

/-- A new current tile that keeps the cell, where it is the tile's cell, changes nothing there. -/
theorem cellAt_setGrid_eq {s : State} {g : Grid} {n : BitVec 8} {x y : Fin 8}
    (h : n = s.cur → cellAt g x y = cellAt s.grid x y) :
    cellAt (tileAt (s.setGrid g).ts n) x y = cellAt (tileAt s.ts n) x y := by
  rw [cellAt_setGrid]
  split
  · next hn => rw [h hn, State.grid, hn]
  · rfl

/-- The points of a run that stays within the endpoints are cells the LINE may write (R90). -/
theorem mayWriteCell_of_onRun {ax : Axis} {f m1 m2 : Int} {k : Nat} {x y : Fin 8} (v : Int)
    (s : State) (hne : m1 ≠ m2) (hk : (k : Int) ≤ max m1 m2 - min m1 m2 + 1)
    (h : onRun ax f (min m1 m2) k x y) : mayWriteCell (lineAlong ax f m1 m2 v) s s.cur x y := by
  obtain ⟨c, hlo, hhi, hx, hy⟩ := h
  cases ax with
  | vertical =>
    simp only [pointX, pointY] at hx hy
    exact ⟨rfl, by omega, by omega, by omega, by omega, .inl ⟨rfl, hne⟩⟩
  | horizontal =>
    simp only [pointX, pointY] at hx hy
    exact ⟨rfl, by omega, by omega, by omega, by omega, .inr ⟨rfl, hne⟩⟩

/-- A cell that the command may not write holds what it held. -/
theorem Effect.cellAt_eq {s t : State} {i : Instr} {st : Status} {d : Nat} (h : Effect s i t st d)
    {n : BitVec 8} {x y : Fin 8} (hnot : ¬mayWriteCell i s n x y) :
    cellAt (tileAt t.ts n) x y = cellAt (tileAt s.ts n) x y := by
  cases h with
  | setOk hok =>
    refine cellAt_setGrid_eq fun hn => ?_
    obtain ⟨-, hx, hy⟩ := hok
    rw [cellAt_withCell, if_neg]
    rintro ⟨rfl, rfl⟩
    exact hnot ⟨hn, coord_cast hx, coord_cast hy⟩
  | lineLeaves hne _ hhi hk _ off =>
    refine cellAt_setGrid_eq fun hn => off x y fun hon => hnot ?_
    subst hn
    exact mayWriteCell_of_onRun _ s hne (by omega) hon
  | lineOk hne _ _ hk _ off =>
    refine cellAt_setGrid_eq fun hn => off x y fun hon => hnot ?_
    subst hn
    exact mayWriteCell_of_onRun _ s hne hk.le hon
  | decOk _ => exact cellAt_setGrid_eq fun hn => absurd hn hnot
  | deserOk _ => exact absurd trivial hnot
  | _ => simp

/-- Settles O46, by the effect of the command: responding changes no cell. -/
theorem unwrittenCellsHoldTheirValue : Obligations.UnwrittenCellsHoldTheirValue := by
  intro i s u hexec n x y hnot
  obtain ⟨t, st, d, rfl, heff⟩ := effect_of_exec hexec
  exact heff.cellAt_eq hnot

/-! ### What a command keeps of the invariant (R16, R17, R57) -/

theorem legalResponse_responseWord {st : Status} {d : Nat} (hst : st ≠ .typeArgument)
    (hd : d ≤ 8192) : LegalResponse (responseWord st d) := by
  constructor
  · rw [rspStatus_responseWord]
    cases st with
    | typeArgument => exact absurd rfl hst
    | _ => decide
  · rw [rspData_responseWord, BitVec.toNat_ofNat]
    omega

/-- The bytes ENC and SER write lie inside `BUF`, and BWR checks its address (R30, R110). -/
theorem Effect.buf_wf {s t : State} {i : Instr} {st : Status} {d : Nat} (h : Effect s i t st d)
    (hwf : s.buf.wf = true) : t.buf.wf = true := by
  cases h with
  | enc =>
    rw [setBlen_buf, writeBytes_buf]
    exact Memory.wf_writeList hwf (by simp)
  | ser =>
    rw [setBlen_buf, writeBytes_buf]
    exact Memory.wf_writeList hwf (by simp)
  | bwrOk hok =>
    obtain ⟨haddr, -⟩ := hok
    exact Memory.wf_write hwf (addrOf_lt haddr) _
  | _ => simpa using hwf

/-- ENC and SER set `BLEN` to 16 and 4096, and SETLEN checks its operand (R17, R112). -/
theorem Effect.blen_le {s t : State} {i : Instr} {st : Status} {d : Nat} (h : Effect s i t st d)
    (hle : s.blen.toNat ≤ 8192) : t.blen.toNat ≤ 8192 := by
  cases h with
  | enc => simp
  | ser => simp
  | setlenOk hn =>
    rw [setBlen_blen, lenOf_toNat hn]
    rw [inLen_iff] at hn
    omega
  | _ => simpa using hle

theorem Inv.respond {s : State} (h : Inv s) {st : Status} {d : Nat} (hst : st ≠ .typeArgument)
    (hd : d ≤ 8192) : Inv (s.respond st d) where
  bufCanonical := h.bufCanonical
  blenLegal := h.blenLegal
  pendingLegal r hr := by
    rw [respond_rsp, Option.some.injEq] at hr
    exact hr ▸ legalResponse_responseWord hst hd
  deliveredLegal := h.deliveredLegal

theorem exec_keeps_inv {i : Instr} {s u : State} (h : Inv s) (hexec : exec i s = .next u) :
    Inv u := by
  obtain ⟨t, st, d, rfl, heff⟩ := effect_of_exec hexec
  obtain ⟨hrsp, -, -, -, hdelivered, hst, hd⟩ := effect_ports heff
  have ht : Inv t :=
    ⟨heff.buf_wf h.bufCanonical, heff.blen_le h.blenLegal, hrsp ▸ h.pendingLegal,
      hdelivered ▸ h.deliveredLegal⟩
  exact ht.respond hst (hd h.blenLegal)

theorem execWord_keeps_inv {w : CmdWord} {s u : State} (h : Inv s)
    (hword : execWord w s = .next u) : Inv u := by
  cases hdec : decode w with
  | ok i => exact exec_keeps_inv h (execWord_ok hdec s ▸ hword)
  | error e =>
    rw [execWord_error hdec] at hword
    cases hword
    exact h.respond (by decide) (Nat.zero_le _)

/-! ### What an edge keeps of the invariant -/

theorem Inv.popPins {s : State} (h : Inv s) : Inv s.popPins :=
  ⟨h.bufCanonical, h.blenLegal, h.pendingLegal, h.deliveredLegal⟩

theorem Inv.tick {s : State} (h : Inv s) : Inv s.tick :=
  ⟨h.bufCanonical, h.blenLegal, h.pendingLegal, h.deliveredLegal⟩

/-- A reset gives the reset state and keeps what the host has received. -/
theorem Inv.hardReset {s : State} (h : Inv s) : Inv s.hardReset :=
  ⟨resetStateIsSafe.bufCanonical, resetStateIsSafe.blenLegal, resetStateIsSafe.pendingLegal,
    h.deliveredLegal⟩

/-- The word delivered is the one that was pending. -/
theorem Inv.deliver {s : State} {r : RspWord} (h : Inv s) (hr : s.rsp = some r) :
    Inv (s.deliver r) where
  bufCanonical := h.bufCanonical
  blenLegal := h.blenLegal
  pendingLegal q hq := by cases hq
  deliveredLegal q hq := by
    rw [deliver_delivered, List.mem_append, List.mem_singleton] at hq
    obtain hq | rfl := hq
    · exact h.deliveredLegal q hq
    · exact h.pendingLegal q hr

/-- Everything one rising edge can do, one case per branch of `edge` (R51, R140, R149, R150). -/
inductive StepCase (s : State) : State → Prop where
  | reset (hrst : s.pins.rst = true) : StepCase s s.popPins.hardReset
  | delay (hrst : s.pins.rst = false) (hwait : s.wait ≠ 0) : StepCase s s.popPins.tick
  | deliver {r : RspWord} (hrst : s.pins.rst = false) (hwait : s.wait = 0) (hrsp : s.rsp = some r)
      (hready : s.pins.rspReady = true) : StepCase s (s.popPins.deliver r)
  | hold {r : RspWord} (hrst : s.pins.rst = false) (hwait : s.wait = 0) (hrsp : s.rsp = some r)
      (hready : s.pins.rspReady = false) : StepCase s s.popPins
  | accept {t : State} (hrst : s.pins.rst = false) (hwait : s.wait = 0) (hrsp : s.rsp = none)
      (hvalid : s.pins.cmdValid = true) (hword : execWord s.pins.cmdWord s.popPins = .next t) :
      StepCase s t
  | idle (hrst : s.pins.rst = false) (hwait : s.wait = 0) (hrsp : s.rsp = none)
      (hvalid : s.pins.cmdValid = false) : StepCase s s.popPins

/-- The case of an edge that answered a next state. -/
theorem stepCase_of_step {s t : State} (h : step s = .next t) : StepCase s t := by
  cases hrst : s.pins.rst with
  | true =>
    cases (step_reset hrst).symm.trans h
    exact .reset hrst
  | false =>
    by_cases hwait : s.wait = 0
    · cases hrsp : s.rsp with
      | some r =>
        cases hready : s.pins.rspReady with
        | true =>
          cases (step_deliver hrst hwait hrsp hready).symm.trans h
          exact .deliver hrst hwait hrsp hready
        | false =>
          cases (step_hold hrst hwait hrsp hready).symm.trans h
          exact .hold hrst hwait hrsp hready
      | none =>
        cases hvalid : s.pins.cmdValid with
        | true =>
          rw [step_accept hrst hwait hrsp hvalid] at h
          exact .accept hrst hwait hrsp hvalid h
        | false =>
          cases (step_idle hrst hwait hrsp hvalid).symm.trans h
          exact .idle hrst hwait hrsp hvalid
    · cases (step_delay hrst hwait).symm.trans h
      exact .delay hrst hwait

/-- Settles O19, by the case of the edge: a command accepted keeps the invariant by its effect. -/
theorem everyStepKeepsTheInvariant : Obligations.EveryStepKeepsTheInvariant := by
  intro s t hinv hstep
  cases stepCase_of_step hstep with
  | reset _ => exact hinv.popPins.hardReset
  | delay _ _ => exact hinv.popPins.tick
  | deliver _ _ hrsp _ => exact hinv.popPins.deliver hrsp
  | hold _ _ _ _ => exact hinv.popPins
  | accept _ _ _ _ hword => exact execWord_keeps_inv hinv.popPins hword
  | idle _ _ _ _ => exact hinv.popPins

end Sys2Proof.Machine
end

section
/-! PROOFS. The family 20_memory.md: the frame of the byte space (R31, R37), repeated commands (R42),
and what a command word depends on (R43, R45). -/

namespace Sys2Proof.Machine

open Sys2Proof Sys2Proof.Statements

/-! ### What a command word depends on (R43, R45) -/

/-- Settles O16, by the congruence of `execWord` under equal architectural states. -/
theorem commandSeesOnlyArchitecturalState : Obligations.CommandSeesOnlyArchitecturalState := by
  intro w s s' harch
  obtain ⟨t, t', st, d, hs, hs', ht⟩ := execWord_congr w harch
  exact ⟨_, _, _, transact_next hs, transact_next hs', ht.symm⟩

/-! ### The frame of the byte space (R31, R37) -/

/-- A byte sequence written at `base` leaves every address past its end. -/
theorem Memory.read_writeList_past {m : Memory} (h : m.wf = true) {base a : Nat} {bs : List Byte}
    (hb : base + bs.length ≤ 8192) (ha : base + bs.length ≤ a) :
    (m.writeList base bs).read a = m.read a := by
  rw [Memory.read_writeList h hb, dif_neg (by omega)]

/-- A byte that the command does not store to reads as before. -/
theorem Effect.read_eq {s t : State} {i : Instr} {st : Status} {d : Nat} (h : Effect s i t st d)
    (hwf : s.buf.wf = true) {a : Nat} (hnot : ¬storesByte i a) :
    t.buf.read a = s.buf.read a := by
  cases h with
  | enc =>
    rw [setBlen_buf, writeBytes_buf]
    exact Memory.read_writeList_past hwf (by simp) (by simpa using Nat.not_lt.mp hnot)
  | ser =>
    rw [setBlen_buf, writeBytes_buf]
    exact Memory.read_writeList_past hwf (by simp) (by simpa using Nat.not_lt.mp hnot)
  | bwrOk _ =>
    rw [writeByte_buf, Memory.read_write hwf]
    exact if_neg hnot
  | _ => simp

/-- Settles O45, by the effect of the command: responding changes no byte. -/
theorem unstoredBytesReadAsBefore : Obligations.UnstoredBytesReadAsBefore := by
  intro i s u hwf hexec a hnot
  obtain ⟨t, st, d, rfl, heff⟩ := effect_of_exec hexec
  exact heff.read_eq hwf hnot

/-! ### Reads and repeated commands (R42) -/

/-- No LINE is among the reading commands. -/
theorem not_onlyReads_lineAlong (ax : Axis) (f m1 m2 v : Int) :
    ¬onlyReads (lineAlong ax f m1 m2 v) := by
  cases ax <;> exact id

/-- A reading command leaves the state as it was before its response. -/
theorem Effect.eq_of_onlyReads {s t : State} {i : Instr} {st : Status} {d : Nat}
    (h : Effect s i t st d) (hread : onlyReads i) : t = s := by
  cases h with
  | getOk _ | getBad _ | rdcur | brdOk _ | brdBad _ | rdlen => rfl
  | lineFails _ _ | lineLeaves _ _ _ _ _ _ | lineOk _ _ _ _ _ _ =>
    exact absurd hread (not_onlyReads_lineAlong _ _ _ _ _)
  | _ => exact False.elim hread

/-- Writing a cell again with the same value changes nothing. -/
@[simp] theorem withCell_withCell (g : Grid) (x y : Fin 8) (v : Pixel) :
    withCell (withCell g x y v) x y v = withCell g x y v := by
  refine grid_ext fun x' y' => ?_
  simp only [cellAt_withCell]
  split <;> rfl

/-- Writing a byte again with the same value changes nothing. -/
theorem writeByte_again {s : State} (hwf : s.buf.wf = true) {a : Nat} (ha : a < 8192) (b : Byte) :
    (s.writeByte a b).writeByte a b = s.writeByte a b := by
  simp only [State.writeByte, Memory.write_write hwf ha]

/-- Writing the same bytes and the same length again, as ENC and SER do, changes nothing. -/
theorem writeBytes_setBlen_again {s : State} (hwf : s.buf.wf = true) {bs : List Byte}
    (hb : bs.length ≤ 8192) (n : BitVec 14) :
    (((s.writeBytes 0 bs).setBlen n).writeBytes 0 bs).setBlen n = (s.writeBytes 0 bs).setBlen n := by
  have hbuf := Memory.writeList_writeList hwf (base := 0) (bs := bs) (by omega)
  simp only [State.writeBytes, State.setBlen, hbuf]

/-- The state a command leaves is a fixed point of it: from there it has the same effect, writes
nothing new, and answers the same. -/
theorem Effect.again {s t : State} {i : Instr} {st : Status} {d : Nat} (h : Effect s i t st d)
    (hwf : s.buf.wf = true) : Effect t i t st d := by
  have unchanged := h
  cases h with
  | @setOk x y v hok =>
    simpa using Effect.setOk (s := s.setGrid (withCell s.grid (coord x) (coord y) (pixelOf v))) hok
  | enc =>
    have e := Effect.enc (s := (s.writeBytes 0 (encodeTile s.grid).toList).setBlen 16)
    rwa [setBlen_grid, writeBytes_grid, writeBytes_setBlen_again hwf (by simp)] at e
  | decOk hlen => simpa using Effect.decOk (s := s.setGrid _) hlen
  | lineLeaves hne hfirst hhi hk on _ =>
    simpa using Effect.lineLeaves (s := s.setGrid _) hne hfirst hhi hk on (by simp)
  | lineOk hne hfirst hhi hk on _ =>
    simpa using Effect.lineOk (s := s.setGrid _) hne hfirst hhi hk on (by simp)
  | selectOk ht => exact .selectOk ht
  | ser =>
    have e := Effect.ser (s := (s.writeBytes 0 (storeImage s.ts)).setBlen 4096)
    rwa [setBlen_ts, writeBytes_ts, writeBytes_setBlen_again hwf (by simp)] at e
  | deserOk hlen => exact .deserOk hlen
  | @bwrOk a b hok =>
    have e := Effect.bwrOk (s := s.writeByte (addrOf a) (byteOf b)) hok
    rwa [writeByte_again hwf (addrOf_lt hok.left)] at e
  | setlenOk hn => exact .setlenOk hn
  | _ => exact unchanged

/-- Settles O48: a reading command leaves its state, and any command repeated has the effect it had,
since responding changes nothing that a command sees. -/
theorem repeatingACommandChangesNothingMore :
    Obligations.RepeatingACommandChangesNothingMore := by
  refine ⟨fun i s u hread hexec => ?_, fun i s u v hwf hfirst hsecond => ?_⟩
  · obtain ⟨t, st, d, rfl, heff⟩ := effect_of_exec hexec
    rw [respond_arch, heff.eq_of_onlyReads hread]
  · obtain ⟨t, st, d, rfl, heff⟩ := effect_of_exec hfirst
    obtain ⟨t', hagain, harch⟩ := exec_congr (heff.again hwf) (respond_arch t st d).symm
    cases hagain.symm.trans hsecond
    exact ⟨harch, rfl⟩

end Sys2Proof.Machine
end

section
/-! PROOFS. The family 30_encoding.md: the decoder, the encoder and the match and mask table (R54 to
R66), the handshake and the two levels (R51, R52, R150 to R152), the pseudo-instructions (R64). -/

namespace Sys2Proof.Machine

open Sys2Proof Sys2Proof.Statements

/-! ### The encoder is a right inverse of the decoder (R54, R55, R66) -/

/-- The word of a command carries its operands in fields A, B, ...; a field past the last operand
holds 0 (R54, R55, R61). -/
theorem encode_eq_packWord (i : Instr) :
    encode i = packWord (opcodeNumber i.opcode)
      (operandField (i.operands.getD 0 0)) (operandField (i.operands.getD 1 0))
      (operandField (i.operands.getD 2 0)) (operandField (i.operands.getD 3 0))
      (operandField (i.operands.getD 4 0)) := by
  cases i <;> rfl

/-- Every operand of a well-formed command, absent ones included, is the value of its field. -/
theorem operandField_operand_toInt {i : Instr} (h : i.wf = true) (k : Nat) :
    (operandField (i.operands.getD k 0)).toInt = i.operands.getD k 0 := by
  refine operandField_toInt ?_
  by_cases hk : k < i.operands.length
  · rw [List.getD_eq_getElem _ _ hk]
    exact List.all_eq_true.mp h _ (List.getElem_mem hk)
  · rw [List.getD_eq_default _ _ (Nat.not_lt.mp hk)]
    rfl

/-- A word whose fields hold the operands of a command is read as that command (R66 step 4). -/
theorem commandOf_eq_of_fields {i : Instr} {w : CmdWord}
    (hA : (fieldA w).toInt = i.operands.getD 0 0) (hB : (fieldB w).toInt = i.operands.getD 1 0)
    (hC : (fieldC w).toInt = i.operands.getD 2 0) (hD : (fieldD w).toInt = i.operands.getD 3 0)
    (hE : (fieldE w).toInt = i.operands.getD 4 0) : commandOf i.opcode w = i := by
  cases i <;> simp only [Instr.opcode, commandOf, hA, hB, hC, hD, hE] <;> rfl

theorem commandOf_encode {i : Instr} (h : i.wf = true) : commandOf i.opcode (encode i) = i := by
  have field (k : Nat) := operandField_operand_toInt h k
  apply commandOf_eq_of_fields <;> rw [encode_eq_packWord]
  · rw [fieldA_packWord, field]
  · rw [fieldB_packWord, field]
  · rw [fieldC_packWord, field]
  · rw [fieldD_packWord, field]
  · rw [fieldE_packWord, field]

/-- The header of the word of every command (R54, R60, R61). -/
theorem header_encode (i : Instr) : Laws.Header.Statement i := by
  cases i with
  | get x y => exact Laws.Header.get x y
  | set x y v => exact Laws.Header.set x y v
  | clamp => exact Laws.Header.clamp
  | enc => exact Laws.Header.enc
  | dec => exact Laws.Header.dec
  | line x1 y1 x2 y2 v => exact Laws.Header.line x1 y1 x2 y2 v
  | select t => exact Laws.Header.select t
  | rdcur => exact Laws.Header.rdcur
  | ser => exact Laws.Header.ser
  | deser => exact Laws.Header.deser
  | bwr a b => exact Laws.Header.bwr a b
  | brd a => exact Laws.Header.brd a
  | setlen n => exact Laws.Header.setlen n
  | rdlen => exact Laws.Header.rdlen

/-- Settles O1: the header selects the command's own row, and its fields hold its operands. -/
theorem decodeOfEncodeIsTheCommand : Obligations.DecodeOfEncodeIsTheCommand := by
  intro i hwf
  obtain ⟨hop, hrsv, hunused⟩ := header_encode i
  have hlookup : lookupOpcode (opcodeOf (encode i)) = some i.opcode := by
    rw [hop, lookupOpcode_opcodeNumber]
  exact (decode_ok_iff _ i).mpr ⟨i.opcode, hrsv, hlookup, hunused, commandOf_encode hwf⟩

/-! ### A legal word is the encoding of its command (R66) -/

theorem fitsField_toInt (f : Field) : fitsField f.toInt = true := by
  have hlo := BitVec.le_toInt f
  have hhi := BitVec.toInt_lt (x := f)
  simp only [fitsField, Bool.and_eq_true, decide_eq_true_eq]
  omega

theorem commandOf_wf (o : Opcode) (w : CmdWord) : (commandOf o w).wf = true := by
  cases o <;> simp [commandOf, Instr.wf, Instr.operands, fitsField_toInt]

@[simp] theorem commandOf_opcode (o : Opcode) (w : CmdWord) : (commandOf o w).opcode = o := by
  cases o <;> rfl

@[simp] theorem operandField_of_toInt (f : Field) : operandField f.toInt = f :=
  BitVec.ofInt_toInt

/-- A field that the command does not use is zero (R61). -/
theorem field_eq_zero_of_unused {used : Nat} {w : CmdWord} (h : unusedZero used w = true)
    {lo : Nat} (hlo : 16 + 16 * used ≤ lo) (hhi : lo + 16 ≤ 96) : w.extractLsb' lo 16 = 0 := by
  apply BitVec.eq_of_getLsbD_eq
  intro i hi
  simpa [hi] using (unusedZero_iff used w).mp h (lo + i) (by omega) (by omega)

/-- The command read from the fields of a word with zero unused fields encodes to these fields. -/
theorem encode_commandOf {o : Opcode} {w : CmdWord} (h : unusedZero (operandsUsed o) w = true) :
    encode (commandOf o w) =
      packWord (opcodeNumber o) (fieldA w) (fieldB w) (fieldC w) (fieldD w) (fieldE w) := by
  have unused (k : Nat) (hk : k < 5) (hu : operandsUsed o ≤ k) :
      w.extractLsb' (16 + 16 * k) 16 = 0 := field_eq_zero_of_unused h (by omega) (by omega)
  have hA : operandsUsed o ≤ 0 → fieldA w = 0 := unused 0 (by omega)
  have hB : operandsUsed o ≤ 1 → fieldB w = 0 := unused 1 (by omega)
  have hC : operandsUsed o ≤ 2 → fieldC w = 0 := unused 2 (by omega)
  have hD : operandsUsed o ≤ 3 → fieldD w = 0 := unused 3 (by omega)
  have hE : operandsUsed o ≤ 4 → fieldE w = 0 := unused 4 (by omega)
  -- a used field survives the round trip through its signed value, an unused one is zero
  cases o <;> simp_all [operandsUsed, commandOf, encode, opcodeNumber]

theorem encode_of_decode {w : CmdWord} {i : Instr} (h : decode w = .ok i) : encode i = w := by
  obtain ⟨o, hrsv, hlookup, hunused, rfl⟩ := (decode_ok_iff w i).mp h
  calc encode (commandOf o w)
      = packWord (opcodeOf w) (fieldA w) (fieldB w) (fieldC w) (fieldD w) (fieldE w) := by
        rw [encode_commandOf hunused, opcodeNumber_of_lookup hlookup]
    _ = w := packWord_fields w hrsv

/-- Settles O2: encoding undoes decoding, so the command determines the word. -/
theorem decodingIsInjectiveOnLegalWords : Obligations.DecodingIsInjectiveOnLegalWords := by
  refine ⟨fun w i h => ⟨?_, encode_of_decode h⟩, fun w w' i h h' => ?_⟩
  · obtain ⟨o, -, -, -, rfl⟩ := (decode_ok_iff w i).mp h
    exact commandOf_wf o w
  · exact (encode_of_decode h).symm.trans (encode_of_decode h')

/-! ### The match and mask table (R56, R61) -/

/-- A mask covers the opcode, the byte `rsv` and the fields the command does not use. -/
theorem maskOf_getLsbD (o : Opcode) (i : Nat) (hi : i < 96) :
    (maskOf o).getLsbD i = decide (i < 16 ∨ 16 + 16 * operandsUsed o ≤ i) := by
  have table : ∀ i : Fin 96,
      (maskOf o).getLsbD i.val = decide (i.val < 16 ∨ 16 + 16 * operandsUsed o ≤ i.val) := by
    cases o <;> decide
  exact table ⟨i, hi⟩

/-- A match word is the opcode number and zeros above it. -/
theorem matchOf_eq (o : Opcode) : matchOf o = (opcodeNumber o).setWidth 96 := by
  cases o <;> rfl

/-- Bit by bit, a word satisfies a row's pair when it agrees with the opcode number, extended by
zeros, wherever the mask looks. -/
theorem matchesRow_iff_bits (o : Opcode) (w : CmdWord) :
    w &&& maskOf o = matchOf o ↔ ∀ i, i < 96 → i < 16 ∨ 16 + 16 * operandsUsed o ≤ i →
      w.getLsbD i = (opcodeNumber o).getLsbD i := by
  have hmatch (i : Nat) (hi : i < 96) : (matchOf o).getLsbD i = (opcodeNumber o).getLsbD i := by
    simp [matchOf_eq, hi]
  constructor
  · intro h i hi hlook
    rw [← hmatch i hi, ← h, BitVec.getLsbD_and, maskOf_getLsbD o i hi, decide_eq_true hlook,
      Bool.and_true]
  · intro h
    apply BitVec.eq_of_getLsbD_eq
    intro i hi
    rw [BitVec.getLsbD_and, maskOf_getLsbD o i hi, hmatch i hi]
    by_cases hlook : i < 16 ∨ 16 + 16 * operandsUsed o ≤ i
    · rw [decide_eq_true hlook, Bool.and_true, h i hi hlook]
    · rw [decide_eq_false hlook, Bool.and_false, BitVec.getLsbD_of_ge _ _ (by omega)]

/-- What a row's pair says of the parts of a word: the opcode is the row's, the byte `rsv` is zero
and so are the fields the command does not use. -/
theorem matchesRow_iff (o : Opcode) (w : CmdWord) :
    w &&& maskOf o = matchOf o ↔
      rsvOf w = 0 ∧ opcodeOf w = opcodeNumber o ∧ unusedZero (operandsUsed o) w = true := by
  rw [matchesRow_iff_bits]
  constructor
  · intro h
    refine ⟨?_, ?_, (unusedZero_iff _ w).mpr fun i hlo hi => ?_⟩
    · apply BitVec.eq_of_getLsbD_eq
      intro i hi
      simp [rsvOf, hi, h (8 + i) (by omega) (by omega)]
    · apply BitVec.eq_of_getLsbD_eq
      intro i hi
      simp [opcodeOf, hi, h i (by omega) (by omega)]
    · rw [h i hi (.inr hlo), BitVec.getLsbD_of_ge _ _ (by omega)]
  · rintro ⟨hrsv, hop, hunused⟩ i hi hlook
    have hword := packWord_getLsbD (opcodeOf w) (fieldA w) (fieldB w) (fieldC w) (fieldD w)
      (fieldE w) i
    rw [packWord_fields w hrsv, hop] at hword
    by_cases h8 : i < 8
    · rw [hword, if_pos h8]
    · rw [BitVec.getLsbD_of_ge (opcodeNumber o) _ (by omega)]
      by_cases h16 : i < 16
      · rw [hword, if_neg h8, if_pos h16]
      · exact (unusedZero_iff _ w).mp hunused i (by omega) hi

/-- A word satisfies a row's pair exactly when it decodes to a command of that row. -/
theorem matchesRow_iff_decode (o : Opcode) (w : CmdWord) :
    w &&& maskOf o = matchOf o ↔ decode w = .ok (commandOf o w) := by
  rw [matchesRow_iff, decode_ok_iff]
  constructor
  · rintro ⟨hrsv, hop, hunused⟩
    exact ⟨o, hrsv, by rw [hop, lookupOpcode_opcodeNumber], hunused, rfl⟩
  · rintro ⟨o', hrsv, hlookup, hunused, heq⟩
    have ho : o' = o := by simpa using congrArg Instr.opcode heq
    subst ho
    exact ⟨hrsv, (opcodeNumber_of_lookup hlookup).symm, hunused⟩

theorem matchesRow_of_decode {w : CmdWord} {i : Instr} (h : decode w = .ok i) :
    w &&& maskOf i.opcode = matchOf i.opcode := by
  have hrow := h
  obtain ⟨o, -, -, -, rfl⟩ := (decode_ok_iff w i).mp h
  rw [commandOf_opcode]
  exact (matchesRow_iff_decode o w).mpr hrow

/-- Settles O3: a row's pair says what the decoder checks for that row. -/
theorem legalWordMatchesOneRow : Obligations.LegalWordMatchesOneRow := by
  refine ⟨fun w => ⟨?_, ?_⟩, fun w i => matchesRow_of_decode⟩
  · rintro ⟨i, hdec⟩
    exact ⟨i.opcode, matchesRow_of_decode hdec⟩
  · rintro ⟨o, hrow⟩
    exact ⟨commandOf o w, (matchesRow_iff_decode o w).mp hrow⟩

theorem opcodeNumber_injective {o o' : Opcode} (h : opcodeNumber o = opcodeNumber o') : o = o' := by
  have hlookup := lookupOpcode_opcodeNumber o
  rw [h, lookupOpcode_opcodeNumber, Option.some.injEq] at hlookup
  exact hlookup.symm

/-- Settles O4: both pairs fix the opcode byte, and the fourteen opcode numbers differ. -/
theorem opcodeRowsAreDisjoint : Obligations.OpcodeRowsAreDisjoint := by
  intro w o o' h h'
  obtain ⟨-, hop, -⟩ := (matchesRow_iff o w).mp h
  obtain ⟨-, hop', -⟩ := (matchesRow_iff o' w).mp h'
  exact opcodeNumber_injective (hop.symm.trans hop')

/-! ### Illegal words (R59 to R61) -/

theorem answersIllegal_of_no_row {w : CmdWord} (h : ¬∃ o, w &&& maskOf o = matchOf o) (s : State) :
    AnswersIllegal w s := by
  cases hdec : decode w with
  | ok i => exact absurd ⟨i.opcode, matchesRow_of_decode hdec⟩ h
  | error e => exact ⟨_, execWord_error hdec s, rfl, respond_arch s _ _, rfl, rfl⟩

theorem opcodeNumber_mem_fourteen (o : Opcode) : opcodeNumber o ∈ fourteenOpcodes := by
  cases o <;> decide

/-- Settles O12: an unassigned opcode and a nonzero byte `rsv` each rule out every row, and a word
that satisfies no row is no command. -/
theorem illegalWordAnswersIllegalCommand : Obligations.IllegalWordAnswersIllegalCommand := by
  have hcount : ((List.range 256).filter fun c =>
      BitVec.ofNat 8 c ∉ fourteenOpcodes).length = 242 := by decide +kernel
  refine ⟨fun w s hop => ?_, hcount, fun w s hrsv => ?_, fun w s h => ?_, ?_⟩
  · refine answersIllegal_of_no_row ?_ s
    rintro ⟨o, hrow⟩
    obtain ⟨-, hnumber, -⟩ := (matchesRow_iff o w).mp hrow
    exact hop (show opcodeOf w ∈ fourteenOpcodes from hnumber ▸ opcodeNumber_mem_fourteen o)
  · refine answersIllegal_of_no_row ?_ s
    rintro ⟨o, hrow⟩
    exact hrsv ((matchesRow_iff o w).mp hrow).left
  · exact answersIllegal_of_no_row h s
  · rintro w s ⟨o, hrow⟩
    have hdec := (matchesRow_iff_decode o w).mp hrow
    exact ⟨_, hdec, execWord_ok hdec s⟩

/-! ### One edge (R51, R52, R149, R150) -/

/-- Settles O10: every branch of the edge answers a next state, and so does every command word. -/
theorem everyStepAnswersANextState : Obligations.EveryStepAnswersANextState := by
  refine ⟨fun s => ?_, fun w s => ?_⟩
  · cases hrst : s.pins.rst with
    | true => exact ⟨_, step_reset hrst⟩
    | false =>
      by_cases hwait : s.wait = 0
      · cases hrsp : s.rsp with
        | some r =>
          cases hready : s.pins.rspReady with
          | true => exact ⟨_, step_deliver hrst hwait hrsp hready⟩
          | false => exact ⟨_, step_hold hrst hwait hrsp hready⟩
        | none =>
          cases hvalid : s.pins.cmdValid with
          | true =>
            obtain ⟨t, st, d, hword, -⟩ := execWord_effect s.pins.cmdWord s.popPins
            exact ⟨_, (step_accept hrst hwait hrsp hvalid).trans hword⟩
          | false => exact ⟨_, step_idle hrst hwait hrsp hvalid⟩
      · exact ⟨_, step_delay hrst hwait⟩
  · obtain ⟨t, st, d, hword, -⟩ := execWord_effect w s
    exact ⟨_, _, transact_next hword⟩

theorem cmdReady_iff (s : State) : s.cmdReady = true ↔ s.rsp = none ∧ s.wait = 0 := by
  simp [State.cmdReady]

theorem rspValid_iff (s : State) : s.rspValid = true ↔ s.rsp ≠ none ∧ s.wait = 0 := by
  simp [State.rspValid, Option.isSome_iff_ne_none]

/-- Settles O11: the edge accepts the word, and its decoding is the command. -/
theorem stepRunsTheOfferedCommand : Obligations.StepRunsTheOfferedCommand := by
  intro s i hrst hready hvalid hdec
  obtain ⟨hrsp, hwait⟩ := (cmdReady_iff s).mp hready
  exact (step_accept hrst hwait hrsp hvalid).trans (execWord_ok hdec s.popPins)

/-- Settles O14: while a response is pending, an edge lets a delay pass, delivers or holds. -/
theorem responseIsHeldUntilTaken : Obligations.ResponseIsHeldUntilTaken := by
  intro s r hrst hrsp
  have hbusy : s.cmdReady = false := by simp [State.cmdReady, hrsp]
  by_cases hwait : s.wait = 0
  · have hvalid : s.rspValid = true := (rspValid_iff s).mpr ⟨by simp [hrsp], hwait⟩
    cases hready : s.pins.rspReady with
    | true =>
      refine ⟨_, step_deliver hrst hwait hrsp hready, rfl, hbusy, ?_⟩
      rw [if_pos ⟨hvalid, rfl⟩]
      exact ⟨rfl, rfl⟩
    | false =>
      refine ⟨_, step_hold hrst hwait hrsp hready, rfl, hbusy, ?_⟩
      rw [if_neg (by simp)]
      exact ⟨hrsp, rfl, fun _ => hvalid⟩
  · have hvalid : s.rspValid = false := by simp [State.rspValid, hwait]
    refine ⟨_, step_delay hrst hwait, rfl, hbusy, ?_⟩
    rw [if_neg (by simp [hvalid])]
    exact ⟨hrsp, rfl, fun h => by simp [hvalid] at h⟩

/-! ### A word offered and served (R51, R151) -/

/-- The edges between the acceptance of a word and the next `cmd_ready` under a host that keeps
`rsp_ready` at 1, where `draws` delays have been drawn: the delay before `rsp_valid`, the edge of
the delivery, and the delay after it. -/
def serviceTime (draws : Nat) : Nat := Config.delay draws + (Config.delay (draws + 1) + 1)

theorem takePins_rst {n : Nat} : ∀ p ∈ List.replicate n takePins, p.rst = false := by
  intro p hp
  rw [List.eq_of_mem_replicate hp]
  rfl

/-- A running delay passes while the host is ready to take a response. -/
theorem edges_wait_take {s : State} {n : Nat} {more : List PortIn} (hwait : s.wait = n)
    (hinputs : s.inputs = List.replicate n takePins ++ more) :
    edges n s = some { s with wait := 0, inputs := more } := by
  simpa using edges_wait takePins_rst (by simpa using hwait) hinputs

/-- A host that keeps `rsp_ready` at 1 takes the pending response, and the block is then ready. -/
theorem edges_take {s : State} {r : RspWord} {more : List PortIn} (hrsp : s.rsp = some r)
    (hinputs : s.inputs =
      List.replicate (s.wait + (Config.delay s.draws + 1)) takePins ++ more) :
    ∃ t, edges (s.wait + (Config.delay s.draws + 1)) s = some t ∧ t.arch = s.arch ∧
      t.delivered = s.delivered ++ [r] ∧ t.cmdReady = true ∧ t.draws = s.draws + 1 ∧
      t.inputs = more := by
  rw [List.replicate_add, List.append_assoc] at hinputs
  have hdeliver := step_deliver (s := { s with
    wait := 0
    inputs := List.replicate (Config.delay s.draws + 1) takePins ++ more }) rfl rfl hrsp rfl
  rw [edges_add (edges_wait_take rfl hinputs), edges_succ hdeliver]
  exact ⟨_, edges_wait_take rfl rfl, rfl, rfl, rfl, rfl, rfl⟩

/-- A command word draws one delay and leaves the host's side of the ports as it was. -/
theorem execWord_ports {w : CmdWord} {s u : State} (h : execWord w s = .next u) :
    u.wait = Config.delay s.draws ∧ u.draws = s.draws + 1 ∧ u.inputs = s.inputs ∧
      u.delivered = s.delivered := by
  obtain ⟨t, st, d, hword, heff⟩ := execWord_effect w s
  cases hword.symm.trans h
  obtain ⟨rfl, -, -⟩ | ⟨i, -, heff⟩ := heff
  · exact ⟨rfl, rfl, rfl, rfl⟩
  · obtain ⟨-, -, hdraws, hinputs, hdelivered, -, -⟩ := effect_ports heff
    exact ⟨by rw [respond_wait, hdraws], by rw [respond_draws, hdraws], hinputs, hdelivered⟩

/-- A word offered to a ready block is answered with the response of the transaction, which also
gives the architectural state left, and the block is then ready. -/
theorem edges_serve {s : State} {w : CmdWord} {more : List PortIn} (hready : s.cmdReady = true)
    (hinputs : s.inputs =
      offerPins w :: (List.replicate (serviceTime s.draws) takePins ++ more)) :
    ∃ (u t : State) (st : Status) (d : Nat), execWord w s.popPins = .next (u.respond st d) ∧
      edges (serviceTime s.draws + 1) s = some t ∧ t.arch = u.arch ∧
      t.delivered = s.delivered ++ [responseWord st d] ∧ t.cmdReady = true ∧
      t.draws = s.draws + 2 ∧ t.inputs = more := by
  obtain ⟨hrsp, hwait⟩ := (cmdReady_iff s).mp hready
  have hpins : s.pins = offerPins w := by simp [State.pins, hinputs]
  obtain ⟨u, st, d, hword, -⟩ := execWord_effect w s.popPins
  have haccept : step s = .next (u.respond st d) := by
    rw [step_accept (by rw [hpins]; rfl) hwait hrsp (by rw [hpins]; rfl), hpins]
    exact hword
  obtain ⟨hdelay, hdraws, htail, hdelivered⟩ := execWord_ports hword
  have htime : (u.respond st d).wait + (Config.delay (u.respond st d).draws + 1) =
      serviceTime s.draws := by
    rw [hdelay, hdraws]
    rfl
  obtain ⟨t, hedges, harch, htaken, htready, htdraws, htinputs⟩ :=
    edges_take (s := u.respond st d) (more := more) rfl (by
      rw [htime, htail, popPins_inputs, hinputs]
      rfl)
  refine ⟨u, t, st, d, hword, ?_, harch, hdelivered ▸ htaken, htready, ?_, htinputs⟩
  · rw [edges_succ haccept, ← htime, hedges]
  · rw [htdraws, hdraws, popPins_draws]

/-- Settles O15: the number of edges is the service time. -/
theorem acceptedCommandIsAnsweredOnce : Obligations.AcceptedCommandIsAnsweredOnce := by
  intro s w more hready
  obtain ⟨u, t, st, d, hword, hedges, harch, hdelivered, hrdy, -, hinputs⟩ :=
    edges_serve (s := { s with
      inputs := offerPins w :: (List.replicate (serviceTime s.draws) takePins ++ more) }) hready rfl
  exact ⟨serviceTime s.draws, u.respond st d, t, responseWord st d, transact_next hword, hedges,
    harch, hdelivered, hrdy, hinputs⟩

/-! ### The signal level refines the transaction level (R51, R52, R152) -/

/-- The responses delivered so far, and then the one in flight. -/
def State.responses (s : State) : List RspWord := s.delivered ++ s.rsp.toList

/-- One edge with `rst` at 0 does what the transaction level does with the word accepted, if any. -/
theorem step_refines {s t : State} (hrst : s.pins.rst = false) (hstep : step s = .next t) :
    ∃ (u : State) (rs : List RspWord), runWords s.accepting.toList s = some (u, rs) ∧
      t.arch = u.arch ∧ t.responses = s.responses ++ rs := by
  have nothing (hidle : s.accepting = none) (harch : t.arch = s.arch)
      (hresponses : t.responses = s.responses) :
      ∃ (u : State) (rs : List RspWord), runWords s.accepting.toList s = some (u, rs) ∧
        t.arch = u.arch ∧ t.responses = s.responses ++ rs := by
    rw [hidle]
    exact ⟨s, [], rfl, harch, by rw [hresponses, List.append_nil]⟩
  cases stepCase_of_step hstep with
  | reset hrst' => exact absurd hrst' (by simp [hrst])
  | delay _ hwait => exact nothing (by simp [accepting_eq, hwait]) rfl rfl
  | deliver _ _ hrsp _ =>
    exact nothing (by simp [accepting_eq, hrsp]) rfl (by simp [State.responses, hrsp])
  | hold _ _ hrsp _ => exact nothing (by simp [accepting_eq, hrsp]) rfl rfl
  | idle _ _ _ hvalid => exact nothing (by simp [accepting_eq, hvalid]) rfl rfl
  | accept _ hwait hrsp hvalid hword =>
    have haccept : s.accepting = some s.pins.cmdWord := by
      rw [accepting_eq, if_pos ⟨hrst, hvalid, hrsp, hwait⟩]
    obtain ⟨u, v, st, d, hpopped, hs, harch⟩ := execWord_congr s.pins.cmdWord (popPins_arch s)
    cases hpopped.symm.trans hword
    obtain ⟨-, -, -, hdelivered⟩ := execWord_ports hpopped
    refine ⟨v.respond st d, [responseWord st d], ?_, harch.symm, ?_⟩
    · rw [haccept]
      exact runWords_cons hs
    · simp only [State.responses, hdelivered, hrsp, respond_rsp, popPins_delivered,
        Option.toList_none, Option.toList_some, List.append_nil]

/-- Two runs of words one after the other are the run of both lists, up to the host's side and the
delays. -/
theorem runWords_append {ws vs : List CmdWord} {s t u v : State} {rs qs : List RspWord}
    (hws : runWords ws s = some (t, rs)) (harch : t.arch = u.arch)
    (hvs : runWords vs u = some (v, qs)) :
    ∃ x, runWords (ws ++ vs) s = some (x, rs ++ qs) ∧ x.arch = v.arch := by
  induction ws generalizing s rs with
  | nil =>
    cases hws
    exact runWords_congr harch.symm hvs
  | cons w ws ih =>
    obtain ⟨y, st, d, hword, -⟩ := execWord_effect w s
    rw [runWords_cons hword, Option.map_eq_some_iff] at hws
    obtain ⟨z, hz, heq⟩ := hws
    cases heq
    obtain ⟨x, hx, hxarch⟩ := ih hz
    exact ⟨x, by rw [List.cons_append, runWords_cons hword, hx]; rfl, hxarch⟩

/-- The pins of the next edge have `rst` at 0 when the host's samples have, or none is left. -/
theorem pins_rst_eq_false {s : State} {n : Nat}
    (h : ∀ p ∈ s.inputs.take (n + 1), p.rst = false) : s.pins.rst = false := by
  cases hinputs : s.inputs with
  | nil => simp [State.pins, hinputs, idlePins]
  | cons p ps =>
    have hp : s.pins = p := by simp [State.pins, hinputs]
    exact hp ▸ h p (by simp [hinputs])

/-- A step uses up one sample of the host. -/
theorem step_inputs {s t : State} (hstep : step s = .next t) : t.inputs = s.inputs.tail := by
  cases stepCase_of_step hstep with
  | accept _ _ _ _ hword =>
    obtain ⟨-, -, hinputs, -⟩ := execWord_ports hword
    exact hinputs
  | _ => rfl

/-- Any edges with `rst` at 0 do what the transaction level does with the words they accept. -/
theorem edges_refine {n : Nat} {s t : State} (hrst : ∀ p ∈ s.inputs.take n, p.rst = false)
    (hedges : edges n s = some t) :
    ∃ (u : State) (rs : List RspWord), runWords (acceptedWords n s) s = some (u, rs) ∧
      t.arch = u.arch ∧ t.responses = s.responses ++ rs := by
  induction n generalizing s with
  | zero =>
    cases hedges
    exact ⟨_, [], rfl, rfl, (List.append_nil _).symm⟩
  | succ n ih =>
    obtain ⟨s', hstep⟩ := everyStepAnswersANextState.left s
    rw [edges_succ hstep] at hedges
    have htail : ∀ p ∈ s'.inputs.take n, p.rst = false := by
      rw [step_inputs hstep, ← Nat.add_sub_cancel n 1, ← List.tail_take_eq_take_tail]
      exact fun p hp => hrst p (List.mem_of_mem_tail hp)
    obtain ⟨v, qs, hfirst, hv, hqs⟩ := step_refines (pins_rst_eq_false hrst) hstep
    obtain ⟨u, rs, hrest, hu, hrs⟩ := ih htail hedges
    obtain ⟨x, hx, hxu⟩ := runWords_append hfirst hv.symm hrest
    refine ⟨x, qs ++ rs, ?_, hu.trans hxu.symm, ?_⟩
    · rw [acceptedWords_succ hstep, hx]
    · rw [hrs, hqs, List.append_assoc]

/-- The host that realises a list of words where `draws` delays have been drawn: each word with its
service time. -/
def servingHost (draws : Nat) : List CmdWord → List (CmdWord × Nat)
  | [] => []
  | w :: ws => (w, serviceTime draws) :: servingHost (draws + 2) ws

theorem servingHost_words (draws : Nat) (ws : List CmdWord) :
    (servingHost draws ws).map Prod.fst = ws := by
  induction ws generalizing draws with
  | nil => rfl
  | cons w ws ih => rw [servingHost, List.map_cons, ih]

/-- The words of a list offered in turn to a ready block are answered as the transaction level
answers them. -/
theorem edges_serve_all {ws : List CmdWord} {s : State} (hready : s.cmdReady = true)
    (hinputs : s.inputs = servePins (servingHost s.draws ws)) :
    ∃ (u t : State) (rs : List RspWord), runWords ws s = some (u, rs) ∧ rs.length = ws.length ∧
      edges (servePins (servingHost s.draws ws)).length s = some t ∧ t.arch = u.arch ∧
      t.delivered = s.delivered ++ rs ∧ t.cmdReady = true ∧ t.inputs = [] := by
  induction ws generalizing s with
  | nil => exact ⟨s, s, [], rfl, rfl, rfl, rfl, (List.append_nil _).symm, hready, hinputs⟩
  | cons w ws ih =>
    obtain ⟨y, s', st, d, hword, hedges, harch, hdelivered, hready', hdraws, hinputs'⟩ :=
      edges_serve hready hinputs
    obtain ⟨u, t, rs, hrun, hlen, hrest, ht, htd, htready, htinputs⟩ :=
      ih hready' (hinputs'.trans (by rw [hdraws]))
    have hsingle : runWords [w] s.popPins = some (y.respond st d, [responseWord st d]) :=
      runWords_cons hword
    obtain ⟨x, hx, hxu⟩ := runWords_append hsingle harch.symm hrun
    obtain ⟨x', hx', hxx⟩ := runWords_congr (popPins_arch s) hx
    refine ⟨x', t, responseWord st d :: rs, hx', by simp [hlen], ?_,
      ht.trans (hxx.trans hxu).symm, ?_, htready, htinputs⟩
    · have htotal : (servePins (servingHost s.draws (w :: ws))).length =
          serviceTime s.draws + 1 + (servePins (servingHost s'.draws ws)).length := by
        simp [servingHost, servePins, hdraws]
        omega
      rw [htotal, edges_add hedges, hrest]
    · rw [htd, hdelivered, List.append_assoc]
      rfl

/-- Settles O17: the edges refine the transaction level one by one, and the host that waits out the
service time of each word realises it. -/
theorem signalLevelRefinesTransactionLevel : Obligations.SignalLevelRefinesTransactionLevel := by
  refine ⟨fun n s t hrst hedges => edges_refine hrst hedges, fun ws s hready => ?_⟩
  obtain ⟨u, t, rs, hrun, hlen, hedges, harch, hdelivered, htready, htinputs⟩ :=
    edges_serve_all (s := { s with inputs := servePins (servingHost s.draws ws) }) hready rfl
  have hsame : { s with inputs := servePins (servingHost s.draws ws) }.arch = s.arch := rfl
  obtain ⟨u', hrun', harch'⟩ := runWords_congr hsame hrun
  exact ⟨servingHost s.draws ws, u', t, rs, servingHost_words s.draws ws, hrun', hlen, hedges,
    harch.trans harch'.symm, hdelivered, htready, htinputs⟩

/-! ### The pseudo-instructions (R64, R46) -/

/-- The sixteen bytes read where a byte sequence was written are the bytes of the sequence. -/
theorem readTile_writeList {m : Memory} (h : m.wf = true) {base a : Nat} {bs : List Byte}
    (hb : base + bs.length ≤ 8192) (ha : base ≤ a) (hfit : a + 16 ≤ base + bs.length)
    {b : Vector Byte 16} (hbytes : ∀ i (hi : i < 16), bs[a + i - base]'(by omega) = b[i]) :
    (m.writeList base bs).readTile a = b := by
  apply Vector.ext
  intro i hi
  rw [readTile_getElem, Memory.read_writeList h hb, dif_pos (by omega), hbytes i hi]

/-- The tile read back where its encoding was written (R32, R80). -/
theorem readTile_writeTile {m : Memory} (h : m.wf = true) (b : Vector Byte 16) :
    (m.writeList 0 b.toList).readTile 0 = b :=
  readTile_writeList h (by simp) (by omega) (by simp) fun i hi => by simp

/-- The store read back from its image (R36, R106). -/
theorem decodeStore_writeImage {m : Memory} (h : m.wf = true) (ts : Store) :
    decodeStore (m.writeList 0 (storeImage ts)) = ts := by
  refine store_ext fun t => ?_
  have ht := t.isLt
  have hbytes : (m.writeList 0 (storeImage ts)).readTile (16 * t.toNat) =
      encodeTile (tileAt ts t) :=
    readTile_writeList h (by simp) (by omega) (by simp; omega) fun i => storeImage_getElem ts t i
  rw [tileAt_decodeStore, hbytes, decodeTile_encodeTile]

/-- The responses of a BDUMP of the addresses where a byte sequence was written are its bytes. -/
theorem dump_writeList {m : Memory} (h : m.wf = true) {bs : List Byte} (hb : bs.length ≤ 8192) :
    ((List.range bs.length).map fun i =>
        responseWord .ok ((m.writeList 0 bs).read (0 + i)).toNat) =
      bs.map fun b => responseWord .ok b.toNat := by
  refine List.ext_getElem (by simp) fun i hi _ => ?_
  have hread := Memory.read_writeList h (base := 0) (bs := bs) (by omega) i
  rw [dif_pos (by simpa using hi)] at hread
  simp [hread]

/-- A command that writes `bs` at address 0 and BDUMP of these addresses: its answer and then the
bytes, and nothing but `BUF` and `BLEN` changes (GETTILE and SAVE, R64). -/
theorem runInstrs_write_dump {i : Instr} {s : State} {bs : List Byte} {n : BitVec 14}
    (hexec : exec i s = .next (((s.writeBytes 0 bs).setBlen n).respond .ok 0))
    (h : s.buf.wf = true) (hb : bs.length ≤ 8192) :
    ∃ t, runInstrs (i :: expandBdump 0 bs.length) s =
        some (t, 0 :: bs.map fun b => responseWord .ok b.toNat) ∧ t.ts = s.ts ∧ t.cur = s.cur := by
  obtain ⟨t, hdump, harch⟩ := runInstrs_bdump (a := 0) (n := bs.length)
    (s := ((s.writeBytes 0 bs).setBlen n).respond .ok 0) (by omega)
  rw [Nat.cast_zero, respond_buf, setBlen_buf, writeBytes_buf, dump_writeList h hb] at hdump
  refine ⟨t, ?_, congrArg Arch.ts harch, congrArg Arch.cur harch⟩
  rw [runInstrs_cons hexec, hdump]
  rfl

/-- SETLEN of a legal length sets `BLEN` and answers it (R112). -/
theorem exec_setlen_natCast {n : Nat} (h : n ≤ 8192) (s : State) :
    exec (.setlen n) s = .next ((s.setBlen (lenOf n)).respond .ok n) ∧ (lenOf n).toNat = n := by
  have hin : inLen (n : Int) = true := by
    rw [inLen_iff]
    omega
  have hlen : (lenOf n).toNat = n := lenOf_toNat hin
  refine ⟨?_, hlen⟩
  rw [execSetlen_ok hin, hlen]

/-- The responses to BLOAD of `n` bytes, SETLEN of `n` and a command that answers OK with data 0. -/
def loadResponses (n : Nat) : List RspWord :=
  List.replicate n 0 ++ [responseWord .ok n, responseWord .ok 0]

theorem loadResponses_length (n : Nat) : (loadResponses n).length = n + 2 := by
  simp [loadResponses]

theorem rspStatus_of_mem_loadResponses {n : Nat} {r : RspWord} (h : r ∈ loadResponses n) :
    rspStatus r = 0 := by
  obtain hload | hend := List.mem_append.mp h
  · rw [List.eq_of_mem_replicate hload]
    rfl
  · obtain rfl | rfl : r = responseWord .ok n ∨ r = responseWord .ok 0 := by simpa using hend
    · exact rspStatus_responseWord .ok n
    · exact rspStatus_responseWord .ok 0

/-- BLOAD of a byte sequence at address 0, SETLEN of its length, and a command that sees the bytes
and their length and answers OK with data 0 (PUTTILE and LOAD, R64). -/
theorem runInstrs_load {i : Instr} {s : State} {bs : List Byte} (h : s.buf.wf = true)
    (hb : bs.length ≤ 8192) :
    ∃ v : State, v.ts = s.ts ∧ v.cur = s.cur ∧ v.blen.toNat = bs.length ∧
      v.buf = s.buf.writeList 0 bs ∧
      ∀ u : State, exec i v = .next (u.respond .ok 0) →
        runInstrs (expandBload 0 (bs.map fun b => (b.toNat : Int)) ++ [.setlen bs.length, i]) s =
          some (u.respond .ok 0, loadResponses bs.length) := by
  obtain ⟨t, hload, hts, hcur, -, -, hbuf⟩ := runInstrs_bload (a := 0) (bs := bs) h (by omega)
  rw [Nat.cast_zero] at hload
  obtain ⟨hsetlen, hlen⟩ := exec_setlen_natCast hb t
  refine ⟨(t.setBlen (lenOf bs.length)).respond .ok bs.length, hts, hcur, hlen, hbuf,
    fun u hu => ?_⟩
  rw [runInstrs_append, hload, Option.bind_some, runInstrs_cons hsetlen, runInstrs_cons hu]
  rfl

/-- PUTTILE of sixteen bytes answers OK throughout and decodes them into the current tile (R64). -/
theorem runInstrs_puttile {s : State} (h : s.buf.wf = true) (b : Vector Byte 16) :
    ∃ (t : State) (rs : List RspWord),
      runInstrs (expandPseudo (.puttile (b.map fun c => (c.toNat : Int)))) s = some (t, rs) ∧
      (∀ r ∈ rs, rspStatus r = 0) ∧ t.ts = withTile s.ts s.cur (decodeTile b) ∧ t.cur = s.cur ∧
      t.buf.wf = true := by
  obtain ⟨v, hts, hcur, hblen, hbuf, hrun⟩ :=
    runInstrs_load (i := .dec) (bs := b.toList) h (by simp)
  have hdec := execDec_ok (s := v) (by simpa using hblen)
  rw [hbuf, readTile_writeTile h] at hdec
  have hput : runInstrs (expandPseudo (.puttile (b.map fun c => (c.toNat : Int)))) s =
      some ((v.setGrid (decodeTile b)).respond .ok 0, loadResponses 16) := by
    rw [expandPseudo, Vector.toList_map]
    simpa using hrun _ hdec
  refine ⟨_, _, hput, fun r => rspStatus_of_mem_loadResponses, ?_, hcur, ?_⟩
  · rw [respond_ts, setGrid_ts, hts, hcur]
  · rw [respond_buf, setGrid_buf, hbuf]
    exact Memory.wf_writeList h (by simp)

/-- GETTILE answers OK and the sixteen bytes of the current tile (R64). -/
theorem runInstrs_gettile {s : State} (h : s.buf.wf = true) :
    ∃ t, runInstrs (expandPseudo .gettile) s =
      some (t, 0 :: (encodeTile s.grid).toList.map fun c => responseWord .ok c.toNat) := by
  obtain ⟨t, hrun, -⟩ := runInstrs_write_dump (execEnc_eq s) h (by simp)
  rw [Vector.length_toList] at hrun
  exact ⟨t, hrun⟩

/-- Settles O56: GETTILE encodes the tile that PUTTILE decoded. -/
theorem gettileReturnsWhatPuttilePut : Obligations.GettileReturnsWhatPuttilePut := by
  intro s b h
  obtain ⟨t, rs, hput, hok, hts, hcur, hwf⟩ := runInstrs_puttile h b
  obtain ⟨u, hget⟩ := runInstrs_gettile hwf
  have htile : tileAt t.ts t.cur = decodeTile b := by rw [hts, hcur, tileAt_withTile_self]
  refine ⟨t, u, rs, hput, hok, htile, hcur, fun n hn => ?_, ?_⟩
  · rw [hts, tileAt_withTile, if_neg hn]
  · rw [hget, State.grid, htile, encodeTile_decodeTile]
    rfl

/-- SAVE answers OK and the store image, and leaves `TS` and `CUR` (R64, R46). -/
theorem runInstrs_save {s : State} (h : s.buf.wf = true) :
    ∃ t, runInstrs (expandPseudo .save) s =
        some (t, 0 :: (storeImage s.ts).map fun b => responseWord .ok b.toNat) ∧
      t.ts = s.ts ∧ t.cur = s.cur := by
  obtain ⟨t, hrun, hts, hcur⟩ := runInstrs_write_dump (execSer_eq s) h (by simp)
  rw [storeImage_length] at hrun
  exact ⟨t, hrun, hts, hcur⟩

/-- LOAD of the image of a store answers OK throughout and makes `TS` that store, leaving `CUR`
(R64, R46). -/
theorem runInstrs_loadImage {s : State} (h : s.buf.wf = true) (ts : Store) :
    ∃ t, runInstrs (expandPseudo (.load ((storeImage ts).map fun b => (b.toNat : Int)))) s =
        some (t, loadResponses 4096) ∧ t.ts = ts ∧ t.cur = s.cur := by
  obtain ⟨v, -, hcur, hblen, hbuf, hrun⟩ :=
    runInstrs_load (i := .deser) (bs := storeImage ts) h (by simp)
  have hdeser := execDeser_ok (hblen.trans (storeImage_length ts))
  rw [hbuf, decodeStore_writeImage h] at hdeser
  refine ⟨(v.setStore ts).respond .ok 0, ?_, rfl, hcur⟩
  rw [expandPseudo, List.length_map, hrun _ hdeser, storeImage_length]

/-- The data of the response to the read of a byte is the byte (R111). -/
theorem rspData_byte (st : Status) (b : Byte) :
    (rspData (responseWord st b.toNat)).toNat = b.toNat := by
  rw [rspData_responseWord, BitVec.toNat_ofNat]
  omega

/-- Settles O57: SAVE answers the store image, and LOAD of the image decodes it. -/
theorem loadRestoresWhatSaveReturned : Obligations.LoadRestoresWhatSaveReturned := by
  intro s s' h h'
  obtain ⟨t, hsave, hts, hcur⟩ := runInstrs_save h
  obtain ⟨u, hload, huts, hucur⟩ := runInstrs_loadImage h' s.ts
  have hbytes : ((storeImage s.ts).map fun b => responseWord .ok b.toNat).map
      (fun r => ((rspData r).toNat : Int)) = (storeImage s.ts).map fun b => (b.toNat : Int) := by
    simp only [List.map_map, Function.comp_def, rspData_byte]
  have hbyte : ∀ r ∈ (storeImage s.ts).map fun b => responseWord .ok b.toNat,
      rspStatus r = 0 ∧ (rspData r).toNat ≤ 255 := by
    intro r hr
    obtain ⟨b, -, rfl⟩ := List.mem_map.mp hr
    rw [rspData_byte]
    exact ⟨rspStatus_responseWord .ok _, by omega⟩
  refine ⟨t, _, hsave, by simp, hbyte, hts, hcur, u, loadResponses 4096, ?_,
    loadResponses_length 4096, fun q => rspStatus_of_mem_loadResponses, huts, hucur⟩
  rw [hbytes, hload]

end Sys2Proof.Machine
end

section
/-! PROOFS. The family 40_pixelgrid.md: GET, SET and CLAMP (R70 to R76), and the words the spec's
examples print. -/

namespace Sys2Proof.Machine

open Sys2Proof Sys2Proof.Statements

/-! ### What a command answers (R57) -/

/-- A command that ends with a response answers its status and data, since no command touches the
host's side of the ports. -/
theorem answers_of_exec {i : Instr} {s t : State} {st : Status} {d : Nat}
    (hexec : exec i s = .next (t.respond st d)) :
    Answers i s (statusCode st) d (t.respond st d) := by
  obtain ⟨-, -, hinputs, hdelivered⟩ := registersKeepTheirValue i s _ hexec
  exact ⟨hexec, rfl, hinputs, hdelivered⟩

/-- A command that only responds refuses, whatever status it names. -/
theorem refuses_of_exec {i : Instr} {s : State} {st : Status} {d : Nat}
    (hexec : exec i s = .next (s.respond st d)) : Refuses i s (statusCode st) d :=
  ⟨_, answers_of_exec hexec, respond_arch s st d⟩

theorem rspStatus_of_answers {i : Instr} {s t : State} {st : Status} {d : Nat}
    (h : Answers i s (statusCode st) d t) : t.rsp.map rspStatus = some (statusCode st) := by
  obtain ⟨-, hrsp, -, -⟩ := h
  rw [hrsp]
  exact congrArg some (rspStatus_responseWord st d)

/-! ### GET (R70) -/

theorem not_inCoord_pair {x y : Int} (h : ¬(0 ≤ x ∧ x ≤ 7 ∧ 0 ≤ y ∧ y ≤ 7)) :
    ¬(inCoord x = true ∧ inCoord y = true) := by
  rw [inCoord_iff, inCoord_iff]
  omega

/-- Settles O21: the two branches of GET, and its row of the match and mask table. -/
theorem getReadsOneCell : Obligations.GetReadsOneCell := by
  refine ⟨fun s x y => ?_, fun s x y hbad => ?_, matchesRow_iff_decode .get⟩
  · have hexec := execGet_ok ⟨inCoord_val x, inCoord_val y⟩ s
    rw [coord_val, coord_val] at hexec
    exact ⟨_, answers_of_exec hexec, respond_arch s _ _⟩
  · exact refuses_of_exec (execGet_bad (not_inCoord_pair hbad) s)

/-! ### SET (R71, R72) -/

/-- The cells of the store after one cell of the current tile was written. -/
theorem cellAt_setGrid_withCell (s : State) (x y : Fin 8) (v : Pixel) (n : BitVec 8)
    (x' y' : Fin 8) :
    cellAt (tileAt (s.setGrid (withCell s.grid x y v)).ts n) x' y' =
      if n = s.cur ∧ x' = x ∧ y' = y then v else cellAt (tileAt s.ts n) x' y' := by
  rw [cellAt_setGrid]
  by_cases hn : n = s.cur
  · simp [hn, cellAt_withCell, State.grid]
  · simp [hn]

theorem not_inPixel_inCoord_pair {x y v : Int}
    (h : ¬(0 ≤ v ∧ v ≤ 3 ∧ 0 ≤ x ∧ x ≤ 7 ∧ 0 ≤ y ∧ y ≤ 7)) :
    ¬(inPixel v = true ∧ inCoord x = true ∧ inCoord y = true) := by
  rw [inPixel_iff, inCoord_iff, inCoord_iff]
  omega

@[simp] theorem inPixel_val (v : Fin 4) : inPixel (v.val : Int) = true := by
  rw [inPixel_iff]
  omega

@[simp] theorem pixelOf_natCast (n : Nat) : pixelOf (n : Int) = BitVec.ofNat 2 n :=
  BitVec.ofInt_natCast 2 n

/-- SET with operands in range (R72). -/
theorem exec_set_val (s : State) (x y : Fin 8) (v : Fin 4) :
    exec (.set x.val y.val v.val) s =
      .next ((s.setGrid (withCell s.grid x y (BitVec.ofNat 2 v.val))).respond .ok v.val) := by
  rw [execSet_ok ⟨inPixel_val v, inCoord_val x, inCoord_val y⟩, pixelOf_toNat (inPixel_val v),
    coord_val, coord_val, pixelOf_natCast, Int.toNat_natCast]

/-- Settles O22: the two branches of SET, and its row of the match and mask table. -/
theorem setWritesOneCell : Obligations.SetWritesOneCell := by
  refine ⟨fun s x y v => ?_, fun s x y v hbad => ?_, matchesRow_iff_decode .set⟩
  · exact ⟨_, answers_of_exec (exec_set_val s x y v), cellAt_setGrid_withCell s x y _,
      rfl, rfl, rfl⟩
  · exact refuses_of_exec (execSet_bad (not_inPixel_inCoord_pair hbad) s)

/-! ### The properties of R76 -/

/-- Everything SET can do: with operands in range it writes its cell and answers OK, otherwise it
answers OutOfRange. -/
theorem exec_set_cases {x y v : Int} {s t : State} (hexec : exec (.set x y v) s = .next t) :
    (inPixel v = true ∧ inCoord x = true ∧ inCoord y = true ∧
      t = (s.setGrid (withCell s.grid (coord x) (coord y) (pixelOf v))).respond .ok
        (pixelOf v).toNat) ∨
    t = s.respond .outOfRange 0 := by
  by_cases hok : inPixel v = true ∧ inCoord x = true ∧ inCoord y = true
  · rw [execSet_ok hok, Host.Outcome.next.injEq] at hexec
    obtain ⟨hv, hx, hy⟩ := hok
    exact .inl ⟨hv, hx, hy, hexec.symm⟩
  · rw [execSet_bad hok, Host.Outcome.next.injEq] at hexec
    exact .inr hexec.symm

/-- R76 (a): a GET of the cell that a successful SET wrote answers the value written. -/
theorem get_answers_after_set {s t : State} {x y v : Int} {d : Nat}
    (h : Answers (.set x y v) s 0 d t) : ∃ u, Answers (.get x y) t 0 v.toNat u := by
  have hstatus : t.rsp.map rspStatus = some 0 := rspStatus_of_answers (st := .ok) h
  obtain ⟨hexec, -, -, -⟩ := h
  obtain ⟨hv, hx, hy, ht⟩ | rfl := exec_set_cases hexec
  · have hcell : cellAt t.grid (coord x) (coord y) = pixelOf v := by
      rw [ht, respond_grid, setGrid_grid, cellAt_withCell, if_pos ⟨rfl, rfl⟩]
    have hget := answers_of_exec (execGet_ok ⟨hx, hy⟩ t)
    rw [hcell, pixelOf_toNat hv] at hget
    exact ⟨_, hget⟩
  · simp [statusCode] at hstatus

/-- R76 (c) for SET. -/
theorem set_fails_arch {s t : State} {x y v : Int} (hexec : exec (.set x y v) s = .next t)
    (hfail : t.rsp.map rspStatus ≠ some 0) : t.arch = s.arch := by
  obtain ⟨-, -, -, rfl⟩ | rfl := exec_set_cases hexec
  · simp [statusCode] at hfail
  · exact respond_arch s _ _

/-- Settles O24: no cell but its own is one that SET may write, GET only reads, and the value of a
cell is in range by its type. -/
theorem pixelGridProperties : Obligations.PixelGridProperties := by
  refine ⟨fun s t x y v d hset => ⟨get_answers_after_set hset, ?_⟩, fun s t x y v hexec hfail => ?_,
    fun s => ⟨_, _, execClamp_eq s, execClamp_eq _, respond_arch _ _ _⟩, fun s n x y => ?_⟩
  · obtain ⟨hexec, -, -, -⟩ := hset
    exact unwrittenCellsHoldTheirValue _ s t hexec
  · obtain hget | hset := hexec
    · exact repeatingACommandChangesNothingMore.left (.get x y) s t trivial hget
    · exact set_fails_arch hset hfail
  · exact Nat.le_of_lt_succ (cellAt (tileAt s.ts n) x y).isLt

/-! ### CLAMP (R74) -/

/-- The value of a cell is in [0,3] by its type, where `clamp2` is the identity (R5, R12). -/
theorem clamp2_toNat (p : Pixel) : clamp2 p.toNat = p.toNat :=
  clamp2_of_inRange (by omega) (by omega)

/-- Settles O23: CLAMP only responds, and its row is the whole word. -/
theorem clampChangesNothing : Obligations.ClampChangesNothing := by
  refine ⟨fun s => ?_, matchesRow_iff_decode .clamp⟩
  exact ⟨_, answers_of_exec (execClamp_eq s), respond_arch s _ _, fun x y => (clamp2_toNat _).symm⟩

/-! ### The example words (R72, R80, R90, R100, R110, V-PG-26) -/

/-- A word is decoded to the command whose encoding it is (R66). -/
theorem decode_of_encode_eq {i : Instr} {w : CmdWord} (hwf : i.wf = true) (h : encode i = w) :
    decode w = .ok i :=
  h ▸ decodeOfEncodeIsTheCommand i hwf

/-- Settles O5: each printed word is the encoding of its command. -/
theorem specExampleWordsDecode : Obligations.SpecExampleWordsDecode :=
  ⟨decode_of_encode_eq rfl rfl, decode_of_encode_eq rfl rfl, decode_of_encode_eq rfl rfl,
    decode_of_encode_eq rfl rfl, decode_of_encode_eq rfl rfl, decode_of_encode_eq rfl rfl⟩

end Sys2Proof.Machine
end

section
/-! PROOFS. The family 41_tilecodec.md: ENC and DEC (R80 to R86). -/

namespace Sys2Proof.Machine

open Sys2Proof Sys2Proof.Statements

/-! ### The sixteen bytes of a tile in `BUF` (R32) -/

/-- The bytes at addresses 0 to 15 are those of the tile read at address 0. -/
theorem read_of_readTile {m : Memory} {b : Vector Byte 16} (h : m.readTile 0 = b) {a : Nat}
    (ha : a < 16) : m.read a = b[a] := by
  subst h
  rw [readTile_getElem, Nat.zero_add]

/-- Two memories hold the same sixteen bytes at addresses 0 to 15 exactly when the tiles read there
are equal. -/
theorem readTile_eq_iff {m n : Memory} :
    m.readTile 0 = n.readTile 0 ↔ ∀ a, a < 16 → m.read a = n.read a := by
  constructor
  · intro h a ha
    rw [read_of_readTile h ha, read_of_readTile rfl ha]
  · intro same
    refine Vector.ext fun i hi => ?_
    rw [readTile_getElem, readTile_getElem, Nat.zero_add, same i hi]

/-- Writing back the sixteen bytes that stand at addresses 0 to 15 changes nothing. -/
theorem writeList_readTile {m : Memory} (h : m.wf = true) :
    m.writeList 0 (m.readTile 0).toList = m := by
  have hfit : 0 + (m.readTile 0).toList.length ≤ 8192 := by simp
  refine Memory.ext (Memory.wf_writeList h hfit) h fun a => ?_
  rw [Memory.read_writeList h hfit]
  split
  · simp
  · rfl

/-! ### ENC (R80, R81) -/

/-- What ENC leaves of a state with a canonical `BUF`: the encoding of the current tile at address 0,
`BLEN` 16, and `TS` and `CUR` as they were. -/
theorem enc_leaves {s t : State} (h : s.buf.wf = true) (hexec : exec .enc s = .next t) :
    t.buf.readTile 0 = encodeTile s.grid ∧ t.blen = 16 ∧ t.ts = s.ts ∧ t.cur = s.cur := by
  rw [execEnc_eq, Host.Outcome.next.injEq] at hexec
  subst hexec
  simp [readTile_writeTile h]

/-- Settles O28: the tile read back is the encoding, whose bytes are R7's sums; the bytes from 16 on
are none that ENC stores to. -/
theorem encWritesTheEncodedTile : Obligations.EncWritesTheEncodedTile := by
  refine ⟨fun s h => ?_, matchesRow_iff_decode .enc⟩
  have hexec := execEnc_eq s
  obtain ⟨htile, hkept⟩ := enc_leaves h hexec
  refine ⟨_, answers_of_exec hexec, fun y => ?_, fun a ha => ?_, hkept⟩
  · rw [read_of_readTile htile (by omega), read_of_readTile htile (by omega)]
    exact encodeTileBytesByPlane s.grid y (by omega) (by omega)
  · exact unstoredBytesReadAsBefore .enc s _ h hexec a (Nat.not_lt.mpr ha)

/-- Two tiles encode to the same sixteen bytes exactly when they are equal cell for cell (R81). -/
theorem encodeTile_eq_iff (g g' : Grid) :
    encodeTile g = encodeTile g' ↔ ∀ x y : Fin 8, cellAt g x y = cellAt g' x y := by
  have hinj : Function.Injective encodeTile :=
    Function.LeftInverse.injective (g := decodeTile) decodeTile_encodeTile
  rw [hinj.eq_iff]
  exact ⟨fun h x y => by rw [h], grid_ext⟩

/-- Settles O29: both sides say that the encodings of the current tiles are equal. -/
theorem encOutputIsTheTileAlone : Obligations.EncOutputIsTheTileAlone := by
  intro s s' t t' h h' hexec hexec'
  obtain ⟨htile, -⟩ := enc_leaves h hexec
  obtain ⟨htile', -⟩ := enc_leaves h' hexec'
  rw [← readTile_eq_iff, htile, htile']
  exact encodeTile_eq_iff s.grid s'.grid

/-! ### DEC (R82, R83) -/

/-- Settles O30: the two branches of DEC, and its row of the match and mask table. -/
theorem decReplacesTheTileOrNothing : Obligations.DecReplacesTheTileOrNothing := by
  refine ⟨fun s hlen => ?_, fun s hlen => ?_, matchesRow_iff_decode .dec⟩
  · have hexec := execDec_ok (s := s) (congrArg BitVec.toNat hlen)
    refine ⟨_, answers_of_exec hexec, fun x y => ?_, fun n hn => ?_, rfl, rfl, rfl⟩
    · rw [respond_ts, setGrid_ts, tileAt_withTile_self, cellAt_decodeTile, decodeCell_toNat,
        ← read_of_readTile rfl, ← read_of_readTile rfl]
    · rw [respond_ts, setGrid_ts, tileAt_withTile, if_neg hn]
  · have hlen' : s.blen.toNat ≠ 16 := fun e => hlen (BitVec.eq_of_toNat_eq e)
    exact refuses_of_exec (execDec_bad hlen')

/-! ### Round trips (R86) -/

/-- Two commands that both answer OK with data 0, one after the other. -/
theorem runInstrs_two_ok {i j : Instr} {s t u : State} (hi : exec i s = .next (t.respond .ok 0))
    (hj : exec j (t.respond .ok 0) = .next (u.respond .ok 0)) :
    runInstrs [i, j] s = some (u.respond .ok 0, [0, 0]) := by
  rw [runInstrs_cons hi, runInstrs_cons hj]
  rfl

/-- ENC then DEC (R86): the tile decoded is the one encoded, so `TS` is as it was. -/
theorem runInstrs_enc_dec {s : State} (h : s.buf.wf = true) :
    ∃ t, runInstrs [.enc, .dec] s = some (t, [0, 0]) ∧ t.ts = s.ts ∧ t.cur = s.cur := by
  have henc := execEnc_eq s
  obtain ⟨htile, hblen, hts, hcur⟩ := enc_leaves h henc
  have hdec := execDec_ok (congrArg BitVec.toNat hblen)
  rw [htile, decodeTile_encodeTile] at hdec
  refine ⟨_, runInstrs_two_ok henc hdec, ?_, ?_⟩
  · rw [respond_ts, setGrid_ts, hts, hcur, State.grid, withTile_tileAt]
  · rw [respond_cur, setGrid_cur, hcur]

/-- DEC then ENC (R86): the bytes encoded are the ones decoded, which stand in `BUF` already. -/
theorem runInstrs_dec_enc {s : State} (h : s.buf.wf = true) (hlen : s.blen = 16) :
    ∃ t, runInstrs [.dec, .enc] s = some (t, [0, 0]) ∧ t.buf = s.buf ∧ t.blen = s.blen := by
  have hdec := execDec_ok (s := s) (congrArg BitVec.toNat hlen)
  have henc := execEnc_eq ((s.setGrid (decodeTile (s.buf.readTile 0))).respond .ok 0)
  rw [respond_grid, setGrid_grid, encodeTile_decodeTile] at henc
  refine ⟨_, runInstrs_two_ok hdec henc, ?_, ?_⟩
  · simp [writeList_readTile h]
  · simp [hlen]

/-- Settles O31, by the two directions in which the codec functions are inverse. -/
theorem encDecRoundTrip : Obligations.EncDecRoundTrip :=
  ⟨fun _ => runInstrs_enc_dec, fun _ => runInstrs_dec_enc⟩

end Sys2Proof.Machine
end

section
/-! PROOFS. The family 42_linerasterizer.md: LINE (R90 to R95). -/

namespace Sys2Proof.Machine

open Sys2Proof Sys2Proof.Statements

/-! ### Lines that are not axis-aligned (R91, R92) -/

theorem exec_line_of_not_xor {x1 y1 x2 y2 : Int} (h : ¬Xor (x1 = x2) (y1 = y2)) (v : Int)
    (s : State) : exec (.line x1 y1 x2 y2 v) s = .next (s.respond .validationError 0) := by
  rw [← axisAligned_iff, Bool.not_eq_true] at h
  exact execLine_notAligned h v s

/-- Settles O32: a LINE that fails the axis check only responds. -/
theorem lineNotAxisAlignedIsRefused : Obligations.LineNotAxisAlignedIsRefused :=
  fun s _ _ _ _ v h => refuses_of_exec (exec_line_of_not_xor h v s)

/-! ### The order of the endpoints (R93) -/

/-- The loop sees only the smaller and the larger moving coordinate. -/
theorem drawSpan_comm (ax : Axis) (f v m1 m2 : Int) (s : State) :
    drawSpan ax f v m1 m2 s = drawSpan ax f v m2 m1 s := by
  rw [drawSpan, drawSpan, max_comm, min_comm]

theorem exec_lineAlong_comm (ax : Axis) {m1 m2 : Int} (hne : m1 ≠ m2) (f v : Int) (s : State) :
    exec (lineAlong ax f m1 m2 v) s = exec (lineAlong ax f m2 m1 v) s := by
  rw [exec_lineAlong ax hne, exec_lineAlong ax hne.symm, drawSpan_comm]

theorem exec_line_comm (x1 y1 x2 y2 v : Int) (s : State) :
    exec (.line x1 y1 x2 y2 v) s = exec (.line x2 y2 x1 y1 v) s := by
  by_cases h : Xor (x1 = x2) (y1 = y2)
  · obtain ⟨rfl, hy⟩ | ⟨rfl, hx⟩ := h
    · exact exec_lineAlong_comm .vertical hy x1 v s
    · exact exec_lineAlong_comm .horizontal hx y1 v s
  · have h' : ¬Xor (x2 = x1) (y2 = y1) := by rwa [eq_comm, eq_comm (a := y2)]
    rw [exec_line_of_not_xor h, exec_line_of_not_xor h']

/-- Settles O33: both commands answer the same next state. -/
theorem lineEndpointsCommute : Obligations.LineEndpointsCommute := by
  intro s x1 y1 x2 y2 v
  obtain ⟨t, st, d, hexec, -⟩ := exec_effect (.line x1 y1 x2 y2 v) s
  exact ⟨_, _, hexec, (exec_line_comm x1 y1 x2 y2 v s).symm.trans hexec, rfl, rfl, rfl, rfl⟩

/-! ### The closed form of the loop (R90, R95) -/

/-- A run of `hi - lo + 1` points covers the moving coordinates from `lo` to `hi`. -/
theorem onRun_iff (ax : Axis) (f : Int) {lo hi : Int} {k : Nat} (hk : (k : Int) = hi - lo + 1)
    (x y : Fin 8) : onRun ax f lo k x y ↔
      if decide (ax = .vertical) then (x.val : Int) = f ∧ lo ≤ (y.val : Int) ∧ (y.val : Int) ≤ hi
      else (y.val : Int) = f ∧ lo ≤ (x.val : Int) ∧ (x.val : Int) ≤ hi := by
  cases ax with
  | vertical =>
    constructor
    · rintro ⟨c, hlo, hhi, hx, hy⟩
      simp only [pointX, pointY] at hx hy
      exact ⟨hx, by omega, by omega⟩
    · rintro ⟨hx, hlo, hhi⟩
      exact ⟨y.val, hlo, by omega, hx, rfl⟩
  | horizontal =>
    constructor
    · rintro ⟨c, hlo, hhi, hx, hy⟩
      simp only [pointX, pointY] at hx hy
      exact ⟨hy, by omega, by omega⟩
    · rintro ⟨hy, hlo, hhi⟩
      exact ⟨x.val, hlo, by omega, rfl, hy⟩

/-- A current tile that differs from the old one by the points of a run is the line drawn. -/
theorem drawn_of_run {ax : Axis} {f lo hi v : Int} {k : Nat} {s : State} {g : Grid}
    (hk : (k : Int) = hi - lo + 1)
    (hcells : ∀ x y : Fin 8, (onRun ax f lo k x y → cellAt g x y = pixelOf v) ∧
      (¬onRun ax f lo k x y → cellAt g x y = cellAt s.grid x y)) (st : Status) (d : Nat) :
    Drawn (decide (ax = .vertical)) f lo hi v s ((s.setGrid g).respond st d) := by
  refine ⟨fun n x y => ?_, rfl, rfl, rfl⟩
  obtain ⟨hon, hoff⟩ := hcells x y
  have hiff := onRun_iff ax f hk x y
  rw [respond_ts]
  by_cases hrun : onRun ax f lo k x y
  · rw [cellAt_setGrid, hon hrun]
    exact if_congr (and_iff_left (hiff.mp hrun)).symm rfl rfl
  · rw [cellAt_setGrid_eq fun _ => hoff hrun, if_neg fun h => hrun (hiff.mpr h.right)]

/-- The three outcomes of the loop are the three rows of R95's table. -/
theorem lineTable_lineAlong (ax : Axis) {m1 m2 : Int} (hne : m1 ≠ m2) (f v : Int) (s : State) :
    LineTable (lineAlong ax f m1 m2 v) (decide (ax = .vertical)) f (min m1 m2) (max m1 m2) v s := by
  have hexec := exec_lineAlong ax hne f v s
  obtain ⟨k, g, hcells, hfails | hleaves | hfits⟩ := drawSpan_cases ax f v m1 m2 hne s
  · obtain ⟨hfirst, rfl, rfl, hspan⟩ := hfails
    rw [hspan, setGrid_same] at hexec
    rw [firstPointFails] at hfirst
    rw [LineTable, if_pos hfirst]
    exact refuses_of_exec hexec
  · obtain ⟨hfirst, hhi, hk, hspan⟩ := hleaves
    rw [hspan] at hexec
    rw [firstPointFails] at hfirst
    rw [LineTable, if_neg hfirst, if_pos hhi, ← hk, Int.toNat_natCast]
    exact ⟨_, answers_of_exec hexec, drawn_of_run (by omega) hcells _ _⟩
  · obtain ⟨hfirst, hhi, hk, hspan⟩ := hfits
    rw [hspan] at hexec
    rw [firstPointFails] at hfirst
    rw [LineTable, if_neg hfirst, if_neg (Int.not_lt.mpr hhi), ← hk, Int.toNat_natCast]
    exact ⟨_, answers_of_exec hexec, drawn_of_run hk hcells _ _⟩

/-- Settles O34: the table in both directions, the refusal of any other LINE, and LINE's row of the
match and mask table. -/
theorem lineMeetsItsClosedForm : Obligations.LineMeetsItsClosedForm :=
  ⟨fun s f _ _ v hne => ⟨lineTable_lineAlong .vertical hne f v s,
    lineTable_lineAlong .horizontal hne f v s⟩, lineNotAxisAlignedIsRefused,
    matchesRow_iff_decode .line⟩

end Sys2Proof.Machine
end

section
/-! PROOFS. The family 43_tilestore.md: SELECT, RDCUR, SER and DESER (R100 to R106). -/

namespace Sys2Proof.Machine

open Sys2Proof Sys2Proof.Statements

/-! ### SELECT and RDCUR (R100, R101) -/

@[simp] theorem tileOf_natCast_toNat (n : BitVec 8) : tileOf (n.toNat : Int) = n := by
  rw [tileOf, BitVec.ofInt_natCast, BitVec.ofNat_toNat, BitVec.setWidth_eq]

/-- SELECT of a tile of the store (R100). -/
theorem exec_select_val (s : State) (n : BitVec 8) :
    exec (.select n.toNat) s = .next ((s.setCur n).respond .ok n.toNat) := by
  have hin : inTile (n.toNat : Int) = true := by
    rw [inTile_iff]
    omega
  rw [execSelect_ok hin, tileOf_natCast_toNat]

theorem inTile_eq_false {n : Int} (h : ¬(0 ≤ n ∧ n ≤ 255)) : inTile n = false := by
  rw [← Bool.not_eq_true, inTile_iff]
  exact h

/-- Settles O35: the two branches of SELECT, and its row of the match and mask table. -/
theorem selectSetsTheCurrentTile : Obligations.SelectSetsTheCurrentTile := by
  refine ⟨fun s n => ?_, fun s n hbad => ?_, matchesRow_iff_decode .select⟩
  · exact ⟨_, answers_of_exec (exec_select_val s n), rfl, rfl, rfl, rfl⟩
  · exact refuses_of_exec (execSelect_bad (inTile_eq_false hbad) s)

/-- Settles O36: RDCUR only responds, and its row is the whole word. -/
theorem rdcurReadsTheCurrentTile : Obligations.RdcurReadsTheCurrentTile :=
  ⟨fun s => ⟨_, answers_of_exec rfl, respond_arch s .ok s.cur.toNat⟩,
    matchesRow_iff_decode .rdcur⟩

/-! ### SER (R102, R103) -/

/-- The sixteen bytes of each tile, read where the store image was written, are its encoding
(R36). -/
theorem readTile_writeImage {m : Memory} (h : m.wf = true) (ts : Store) (n : BitVec 8) :
    (m.writeList 0 (storeImage ts)).readTile (16 * n.toNat) = encodeTile (tileAt ts n) :=
  readTile_writeList h (by simp) (by omega) (by simp; omega) fun i => storeImage_getElem ts n i

/-- What SER leaves of a state with a canonical `BUF`: the encoding of every tile, `BLEN` 4096, and
`TS` and `CUR` as they were. -/
theorem ser_leaves {s t : State} (h : s.buf.wf = true) (hexec : exec .ser s = .next t) :
    (∀ n : BitVec 8, t.buf.readTile (16 * n.toNat) = encodeTile (tileAt s.ts n)) ∧
      t.blen = 4096 ∧ t.ts = s.ts ∧ t.cur = s.cur := by
  rw [execSer_eq, Host.Outcome.next.injEq] at hexec
  subst hexec
  exact ⟨readTile_writeImage h s.ts, rfl, rfl, rfl⟩

/-- Where an encoded tile stands in `BUF`, the two bytes of a row are the sums of R7. -/
theorem planeSum_of_readTile {m : Memory} {base : Nat} {g : Grid}
    (h : m.readTile base = encodeTile g) (y : Fin 8) :
    (m.read (base + 2 * y.val)).toNat = planeSum g 0 y ∧
      (m.read (base + 2 * y.val + 1)).toNat = planeSum g 1 y := by
  have hlow : 2 * y.val < 16 := by omega
  have hhigh : 2 * y.val + 1 < 16 := by omega
  rw [Nat.add_assoc base, ← readTile_getElem m base _ hlow, ← readTile_getElem m base _ hhigh]
  simp only [h]
  exact encodeTileBytesByPlane g y hlow hhigh

/-- Settles O37: the tiles read back are the encodings, whose bytes are R7's sums; the bytes from
4096 on are none that SER stores to. -/
theorem serWritesTheStoreImage : Obligations.SerWritesTheStoreImage := by
  refine ⟨fun s h => ?_, matchesRow_iff_decode .ser⟩
  have hexec := execSer_eq s
  obtain ⟨htiles, hkept⟩ := ser_leaves h hexec
  refine ⟨_, answers_of_exec hexec, fun n => planeSum_of_readTile (htiles n), fun a ha => ?_,
    hkept⟩
  exact unstoredBytesReadAsBefore .ser s _ h hexec a (Nat.not_lt.mpr ha)

/-- Settles O38: the bytes at address 0 are those of tile 0, and DEC refuses the length SER sets. -/
theorem decRightAfterSerFails : Obligations.DecRightAfterSerFails := by
  intro s t h hexec
  obtain ⟨htiles, hblen, -, -⟩ := ser_leaves h hexec
  have hlen : t.blen.toNat ≠ 16 := by
    rw [hblen]
    decide
  refine ⟨fun y => ?_, hblen, refuses_of_exec (execDec_bad hlen)⟩
  simpa using planeSum_of_readTile (htiles 0) y

/-! ### DESER (R104, R105) -/

/-- A cell of the store that DESER decodes is the formula of R104. -/
theorem cellAt_decodeStore_toNat (m : Memory) (n : BitVec 8) (x y : Fin 8) :
    (cellAt (tileAt (decodeStore m) n) x y).toNat =
      pixelFrom (m.read (16 * n.toNat + 2 * y.val)) (m.read (16 * n.toNat + 2 * y.val + 1)) x := by
  rw [tileAt_decodeStore, cellAt_decodeTile, decodeCell_toNat, readTile_getElem, readTile_getElem,
    ← Nat.add_assoc]

/-- Settles O39: the two branches of DESER, and its row of the match and mask table. -/
theorem deserReplacesTheStoreOrNothing : Obligations.DeserReplacesTheStoreOrNothing := by
  refine ⟨fun s hlen => ?_, fun s hlen => ?_, matchesRow_iff_decode .deser⟩
  · have hexec := execDeser_ok (s := s) (congrArg BitVec.toNat hlen)
    exact ⟨_, answers_of_exec hexec, cellAt_decodeStore_toNat s.buf, rfl, rfl, rfl⟩
  · have hlen' : s.blen.toNat ≠ 4096 := fun e => hlen (BitVec.eq_of_toNat_eq e)
    exact refuses_of_exec (execDeser_bad hlen')

/-! ### Properties of the family (R106) -/

/-- SER then DESER (R106 (b)): the store decoded is the one encoded. -/
theorem runInstrs_ser_deser {s : State} (h : s.buf.wf = true) :
    ∃ t, runInstrs [.ser, .deser] s = some (t, [0, 0]) ∧ t.ts = s.ts ∧ t.cur = s.cur := by
  have hser := execSer_eq s
  obtain ⟨-, hblen, -, hcur⟩ := ser_leaves h hser
  have hdeser := execDeser_ok (congrArg BitVec.toNat hblen)
  exact ⟨_, runInstrs_two_ok hser hdeser, decodeStore_writeImage h s.ts, hcur⟩

/-- The address of a byte of the store image is that of a byte of a tile (R36). -/
theorem exists_tile_byte {a : Nat} (h : a < 4096) :
    ∃ (n : BitVec 8) (i : Nat), i < 16 ∧ a = 16 * n.toNat + i :=
  ⟨BitVec.ofNat 8 (a / 16), a % 16, by omega, by rw [BitVec.toNat_ofNat]; omega⟩

/-- Writing the image of the store decoded from `BUF` changes nothing: each tile is written back as
the sixteen bytes it was decoded from. -/
theorem writeImage_decodeStore {m : Memory} (h : m.wf = true) :
    m.writeList 0 (storeImage (decodeStore m)) = m := by
  refine Memory.ext (Memory.wf_writeList h (by simp)) h fun a => ?_
  by_cases ha : a < 4096
  · obtain ⟨n, i, hi, rfl⟩ := exists_tile_byte ha
    rw [← readTile_getElem _ _ _ hi, readTile_writeImage h, tileAt_decodeStore,
      encodeTile_decodeTile, readTile_getElem]
  · exact Memory.read_writeList_past h (by simp) (by simpa using ha)

/-- DESER then SER (R106 (c)): the image written is the one decoded, which stands in `BUF`
already. -/
theorem runInstrs_deser_ser {s : State} (h : s.buf.wf = true) (hlen : s.blen = 4096) :
    ∃ t, runInstrs [.deser, .ser] s = some (t, [0, 0]) ∧ t.buf = s.buf ∧ t.blen = s.blen := by
  have hdeser := execDeser_ok (s := s) (congrArg BitVec.toNat hlen)
  have hser := execSer_eq ((s.setStore (decodeStore s.buf)).respond .ok 0)
  refine ⟨_, runInstrs_two_ok hdeser hser, ?_, hlen.symm⟩
  simp [writeImage_decodeStore h]

/-- SELECT then ENC puts the encoding of the selected tile at address 0 (R80, R100). -/
theorem readTile_of_select_enc {s u : State} {n : BitVec 8} {rs : List RspWord}
    (h : s.buf.wf = true) (hrun : runInstrs [.select n.toNat, .enc] s = some (u, rs)) :
    u.buf.readTile 0 = encodeTile (tileAt s.ts n) := by
  have henc := execEnc_eq ((s.setCur n).respond .ok n.toNat)
  obtain ⟨htile, -⟩ := enc_leaves (s := (s.setCur n).respond .ok n.toNat) h henc
  rw [runInstrs_cons (exec_select_val s n), runInstrs_cons henc] at hrun
  simp only [runInstrs, Option.map_some, Option.some.injEq, Prod.mk.injEq] at hrun
  obtain ⟨rfl, -⟩ := hrun
  exact htile

/-- Settles O40: the two round trips, and the encoding of one tile read where SER and where ENC
writes it. -/
theorem serDeserRoundTrip : Obligations.SerDeserRoundTrip := by
  refine ⟨fun _ => runInstrs_ser_deser, fun _ => runInstrs_deser_ser, ?_⟩
  intro s t u n rs h hser hrun i hi
  obtain ⟨htiles, -⟩ := ser_leaves h hser
  rw [read_of_readTile (readTile_of_select_enc h hrun) hi, ← readTile_getElem _ _ _ hi, htiles]

end Sys2Proof.Machine
end

section
/-! PROOFS. The family 44_buffer_access.md: BWR, BRD, SETLEN and RDLEN (R110 to R113). -/

namespace Sys2Proof.Machine

open Sys2Proof Sys2Proof.Statements

/-! ### BWR (R110) -/

theorem inAddr_and_inByte_iff (a b : Int) :
    (inAddr a = true ∧ inByte b = true) ↔ (0 ≤ a ∧ a ≤ 8191 ∧ 0 ≤ b ∧ b ≤ 255) := by
  rw [inAddr_iff, inByte_iff, and_assoc]

/-- Settles O41: the two branches of BWR, and its row of the match and mask table. -/
theorem bwrWritesOneByte : Obligations.BwrWritesOneByte := by
  refine ⟨fun s a b hwf ha0 ha hb0 hb => ?_, fun s a b hbad => ?_, matchesRow_iff_decode .bwr⟩
  · have hin := (inAddr_and_inByte_iff a b).mpr ⟨ha0, ha, hb0, hb⟩
    exact ⟨_, answers_of_exec (execBwr_ok hin s),
      fun c => Memory.read_write hwf (addrOf a) c (byteOf b), rfl, rfl, rfl⟩
  · rw [← inAddr_and_inByte_iff] at hbad
    exact refuses_of_exec (execBwr_bad hbad s)

/-! ### BRD (R111) -/

/-- BRD of an address of the byte space (R111). -/
theorem exec_brd_natCast {a : Nat} (h : a < 8192) (s : State) :
    exec (.brd a) s = .next (s.respond .ok (s.buf.read a).toNat) := by
  have hin : inAddr (a : Int) = true := by
    rw [inAddr_iff]
    omega
  rw [execBrd_ok hin, addrOf, Int.toNat_natCast]

theorem inAddr_eq_false {a : Int} (h : ¬(0 ≤ a ∧ a ≤ 8191)) : inAddr a = false := by
  rw [← Bool.not_eq_true, inAddr_iff]
  exact h

/-- Settles O42: the two branches of BRD, and its row of the match and mask table. -/
theorem brdReadsOneByte : Obligations.BrdReadsOneByte := by
  refine ⟨fun s a ha => ?_, fun s a hbad => ?_, matchesRow_iff_decode .brd⟩
  · exact ⟨_, answers_of_exec (exec_brd_natCast ha s), respond_arch s _ _⟩
  · exact refuses_of_exec (execBrd_bad (inAddr_eq_false hbad) s)

/-! ### SETLEN and RDLEN (R112, R113) -/

theorem inLen_eq_false {n : Int} (h : ¬(0 ≤ n ∧ n ≤ 8192)) : inLen n = false := by
  rw [← Bool.not_eq_true, inLen_iff]
  exact h

/-- Settles O43: the two branches of SETLEN, and its row of the match and mask table. -/
theorem setlenSetsTheLength : Obligations.SetlenSetsTheLength := by
  refine ⟨fun s n hn => ?_, fun s n hbad => ?_, matchesRow_iff_decode .setlen⟩
  · obtain ⟨hexec, hlen⟩ := exec_setlen_natCast hn s
    exact ⟨_, answers_of_exec hexec, hlen, rfl, rfl, rfl⟩
  · exact refuses_of_exec (execSetlen_bad (inLen_eq_false hbad) s)

/-- Settles O44: RDLEN only responds, and its row is the whole word. -/
theorem rdlenReadsTheLength : Obligations.RdlenReadsTheLength :=
  ⟨fun s => ⟨_, answers_of_exec rfl, respond_arch s .ok s.blen.toNat⟩,
    matchesRow_iff_decode .rdlen⟩

end Sys2Proof.Machine
end


section
/-! PROOFS. The family 60_exceptions.md: which status a command answers, with which data, and what a
failing command leaves unchanged (R120 to R128). -/

namespace Sys2Proof.Machine

open Sys2Proof Sys2Proof.Statements

/-! ### The status of a response word (R57, R120) -/

theorem statusCode_injective : Function.Injective statusCode := by
  intro st st'
  cases st <;> cases st' <;> decide

/-- A response word carries the number of no status but its own. -/
theorem rspStatus_eq_statusCode_iff (st st' : Status) (d : Nat) :
    rspStatus (responseWord st d) = statusCode st' ↔ st = st' := by
  rw [rspStatus_responseWord, statusCode_injective.eq_iff]

theorem rspData_responseWord_zero (st : Status) : rspData (responseWord st 0) = 0 :=
  rspData_responseWord st 0

/-! ### What a command or a word answered -/

/-- The response of a command that answered is the one its effect names. -/
theorem answer_of_exec {i : Instr} {s u : State} {r : RspWord} (hexec : exec i s = .next u)
    (hr : u.rsp = some r) :
    ∃ t st d, u = t.respond st d ∧ r = responseWord st d ∧ Effect s i t st d := by
  obtain ⟨t, st, d, rfl, heff⟩ := effect_of_exec hexec
  rw [respond_rsp, Option.some.injEq] at hr
  exact ⟨t, st, d, rfl, hr.symm, heff⟩

/-- `WordEffect s w t st d`: from `s` the word `w` leaves `t` and answers status `st` and data `d`. -/
inductive WordEffect (s : State) (w : CmdWord) : State → Status → Nat → Prop where
  | illegal (h : ¬∃ i, decode w = .ok i) : WordEffect s w s .illegalCommand 0
  | command {i : Instr} {t : State} {st : Status} {d : Nat} (hdec : decode w = .ok i)
      (heff : Effect s i t st d) : WordEffect s w t st d

/-- Every word that answered a next state did one of the two. -/
theorem wordEffect_of_execWord {w : CmdWord} {s u : State} (hword : execWord w s = .next u) :
    ∃ t st d, u = t.respond st d ∧ WordEffect s w t st d := by
  cases hdec : decode w with
  | error e =>
    rw [execWord_error hdec] at hword
    cases hword
    exact ⟨s, _, _, rfl, .illegal (by simp [hdec])⟩
  | ok i =>
    rw [execWord_ok hdec] at hword
    obtain ⟨t, st, d, hu, heff⟩ := effect_of_exec hword
    exact ⟨t, st, d, hu, .command hdec heff⟩

theorem answer_of_execWord {w : CmdWord} {s u : State} {r : RspWord}
    (hword : execWord w s = .next u) (hr : u.rsp = some r) :
    ∃ t st d, u = t.respond st d ∧ r = responseWord st d ∧ WordEffect s w t st d := by
  obtain ⟨t, st, d, rfl, heff⟩ := wordEffect_of_execWord hword
  rw [respond_rsp, Option.some.injEq] at hr
  exact ⟨t, st, d, rfl, hr.symm, heff⟩

/-! ### The statuses that occur (R120, R122) -/

theorem WordEffect.ne_typeArgument {s t : State} {w : CmdWord} {st : Status} {d : Nat}
    (h : WordEffect s w t st d) : st ≠ .typeArgument := by
  cases h with
  | illegal _ => decide
  | command _ heff =>
    obtain ⟨-, -, -, -, -, hst, -⟩ := effect_ports heff
    exact hst

/-- Settles O49: every word responds, and never with TypeArgument. -/
theorem onlyTheListedStatusesOccur : Obligations.OnlyTheListedStatusesOccur := by
  intro w s u hword
  obtain ⟨t, st, d, rfl, heff⟩ := wordEffect_of_execWord hword
  refine ⟨responseWord st d, respond_rsp .., ?_⟩
  rw [rspStatus_responseWord]
  cases st with
  | typeArgument => exact absurd rfl heff.ne_typeArgument
  | _ => decide

/-! ### What a failing command leaves unchanged (R128) -/

/-- A failing command has written nothing and answers data 0, but for a LINE that ran out of range. -/
theorem Effect.error_cases {s t : State} {i : Instr} {st : Status} {d : Nat}
    (h : Effect s i t st d) (hst : st ≠ .ok) :
    (t = s ∧ d = 0) ∨ st = .outOfRange ∧ ∃ x1 y1 x2 y2 v, i = .line x1 y1 x2 y2 v := by
  cases h with
  | getBad _ | setBad _ | decBad _ | lineInvalid _ | lineFails _ _ | selectBad _ | deserBad _
  | bwrBad _ | brdBad _ | setlenBad _ => exact .inl ⟨rfl, rfl⟩
  | @lineLeaves ax f m1 m2 v _ _ hne _ _ _ _ _ =>
    obtain ⟨x1, y1, x2, y2, hline, -⟩ := lineAlong_eq ax hne f v
    exact .inr ⟨rfl, x1, y1, x2, y2, v, hline⟩
  | _ => exact absurd rfl hst

/-- Settles O54: an illegal word only responds, and so does a failing command that is no LINE. -/
theorem failingCommandsChangeNothing : Obligations.FailingCommandsChangeNothing := by
  intro w s u r hword hr hbad
  obtain ⟨t, st, d, rfl, rfl, heff⟩ := answer_of_execWord hword hr
  have hst : st ≠ .ok := mt (rspStatus_eq_statusCode_iff st .ok d).mpr hbad
  cases heff with
  | illegal _ => exact .inl (respond_arch s _ _)
  | command hdec heff =>
    obtain ⟨rfl, -⟩ | ⟨rfl, x1, y1, x2, y2, v, rfl⟩ := heff.error_cases hst
    · exact .inl (respond_arch t _ _)
    · exact .inr ⟨⟨x1, y1, x2, y2, v, hdec⟩, rspStatus_responseWord .outOfRange d⟩

/-! ### OutOfRange (R121) -/

@[simp] theorem outOfRangeCase_get (x y : Int) :
    outOfRangeCase (.get x y) ↔ ¬(inCoord x = true ∧ inCoord y = true) := by
  rw [inCoord_iff, inCoord_iff, and_assoc, outOfRangeCase]

@[simp] theorem outOfRangeCase_set (x y v : Int) :
    outOfRangeCase (.set x y v) ↔
      ¬(inPixel v = true ∧ inCoord x = true ∧ inCoord y = true) := by
  rw [inPixel_iff, inCoord_iff, inCoord_iff, and_assoc, and_assoc, outOfRangeCase]

@[simp] theorem outOfRangeCase_select (n : Int) :
    outOfRangeCase (.select n) ↔ inTile n = false := by
  rw [← Bool.not_eq_true, inTile_iff, outOfRangeCase]

@[simp] theorem outOfRangeCase_bwr (a b : Int) :
    outOfRangeCase (.bwr a b) ↔ ¬(inAddr a = true ∧ inByte b = true) := by
  rw [inAddr_and_inByte_iff, outOfRangeCase]

@[simp] theorem outOfRangeCase_brd (a : Int) : outOfRangeCase (.brd a) ↔ inAddr a = false := by
  rw [← Bool.not_eq_true, inAddr_iff, outOfRangeCase]

@[simp] theorem outOfRangeCase_setlen (n : Int) :
    outOfRangeCase (.setlen n) ↔ inLen n = false := by
  rw [← Bool.not_eq_true, inLen_iff, outOfRangeCase]

theorem not_outOfRangeCase_line {x1 y1 x2 y2 : Int} (h : axisAligned x1 y1 x2 y2 = false)
    (v : Int) : ¬outOfRangeCase (.line x1 y1 x2 y2 v) := by
  rintro ⟨hxor, -⟩
  rw [← axisAligned_iff, h] at hxor
  exact absurd hxor (by decide)

/-- An axis-aligned LINE runs out of range when its first point fails or its last leaves the tile. -/
theorem outOfRangeCase_lineAlong (ax : Axis) {m1 m2 : Int} (hne : m1 ≠ m2) (f v : Int) :
    outOfRangeCase (lineAlong ax f m1 m2 v) ↔
      firstPointFails f v (min m1 m2) ∨ 7 < max m1 m2 := by
  cases ax with
  | vertical =>
    have hxor : Xor (f = f) (m1 = m2) := .inl ⟨rfl, hne⟩
    refine (and_iff_right hxor).trans ?_
    rw [firstPointFails]
    omega
  | horizontal =>
    have hxor : Xor (m1 = m2) (f = f) := .inr ⟨rfl, hne⟩
    refine (and_iff_right hxor).trans ?_
    rw [firstPointFails]
    omega

theorem Effect.outOfRange_iff {s t : State} {i : Instr} {st : Status} {d : Nat}
    (h : Effect s i t st d) : st = .outOfRange ↔ outOfRangeCase i := by
  cases h with
  | getOk h | getBad h | setOk h | setBad h | selectOk h | selectBad h | bwrOk h | bwrBad h
  | brdOk h | brdBad h | setlenOk h | setlenBad h => simp [h]
  | lineInvalid h => exact iff_of_false nofun (not_outOfRangeCase_line h _)
  | lineFails hne hfirst =>
    exact iff_of_true rfl ((outOfRangeCase_lineAlong _ hne _ _).mpr (.inl hfirst))
  | lineLeaves hne _ hhi _ _ _ =>
    exact iff_of_true rfl ((outOfRangeCase_lineAlong _ hne _ _).mpr (.inr hhi))
  | lineOk hne hfirst hhi _ _ _ =>
    refine iff_of_false nofun fun hbad => ?_
    exact ((outOfRangeCase_lineAlong _ hne _ _).mp hbad).elim hfirst (Int.not_lt.mpr hhi)
  | clamp | enc | decOk _ | decBad _ | rdcur | ser | deserOk _ | deserBad _ | rdlen =>
    exact iff_of_false nofun id

/-- The points an out-of-range LINE has written before the failing one, by its operands (R94, R121). -/
def pointsBeforeFailure (x1 y1 x2 y2 v : Int) : Nat :=
  if v < 0 ∨ 3 < v ∨ min x1 x2 < 0 ∨ 7 < min x1 x2 ∨ min y1 y2 < 0 ∨ 7 < min y1 y2 then 0
  else if x1 = x2 then (8 - min y1 y2).toNat else (8 - min x1 x2).toNat

theorem pointsBeforeFailure_le (x1 y1 x2 y2 v : Int) : pointsBeforeFailure x1 y1 x2 y2 v ≤ 8 := by
  unfold pointsBeforeFailure
  split_ifs <;> omega

theorem pointsBeforeFailure_lineAlong {ax : Axis} {f m1 m2 v x1 y1 x2 y2 v' : Int} (hne : m1 ≠ m2)
    (hline : lineAlong ax f m1 m2 v = .line x1 y1 x2 y2 v') :
    (firstPointFails f v (min m1 m2) → pointsBeforeFailure x1 y1 x2 y2 v' = 0) ∧
    (¬firstPointFails f v (min m1 m2) →
      pointsBeforeFailure x1 y1 x2 y2 v' = (8 - min m1 m2).toNat) := by
  cases ax with
  | vertical =>
    cases hline
    simp only [firstPointFails, pointsBeforeFailure, min_self, if_true]
    exact ⟨fun h => if_pos h, fun h => if_neg h⟩
  | horizontal =>
    cases hline
    simp only [firstPointFails, pointsBeforeFailure, min_self, if_neg hne]
    exact ⟨fun h => if_pos (by omega), fun h => if_neg (by omega)⟩

/-- The data of an out-of-range LINE is the number of points it wrote. -/
theorem Effect.line_data {s t : State} {i : Instr} {d : Nat} (h : Effect s i t .outOfRange d)
    {x1 y1 x2 y2 v : Int} (hline : i = .line x1 y1 x2 y2 v) :
    d = pointsBeforeFailure x1 y1 x2 y2 v := by
  cases h with
  | lineFails hne hfirst => exact ((pointsBeforeFailure_lineAlong hne hline).left hfirst).symm
  | lineLeaves hne hfirst _ hk _ _ =>
    rw [(pointsBeforeFailure_lineAlong hne hline).right hfirst, ← hk, Int.toNat_natCast]
  | _ => cases hline

/-- Settles O50: the range checks of every command, the data of a failing command, and the points a
LINE wrote. -/
theorem outOfRangeExactlyAsListed : Obligations.OutOfRangeExactlyAsListed := by
  intro i s u r hexec hr
  obtain ⟨t, st, d, rfl, rfl, heff⟩ := answer_of_exec hexec hr
  have hstatus := rspStatus_eq_statusCode_iff st .outOfRange d
  refine ⟨hstatus.trans heff.outOfRange_iff, fun h2 hnot => ?_, fun x1 y1 x2 y2 v hline h2 => ?_⟩
  · obtain rfl := hstatus.mp h2
    obtain ⟨-, rfl⟩ | ⟨-, x1, y1, x2, y2, v, hline⟩ := heff.error_cases nofun
    · exact rspData_responseWord_zero _
    · exact absurd hline (hnot x1 y1 x2 y2 v)
  · obtain rfl := hstatus.mp h2
    have hd := heff.line_data hline
    have hle := pointsBeforeFailure_le x1 y1 x2 y2 v
    rw [rspData_responseWord, BitVec.toNat_ofNat, hd, Nat.mod_eq_of_lt (by omega)]
    rfl

/-! ### FormatError (R123) -/

theorem Effect.formatError_iff {s t : State} {i : Instr} {st : Status} {d : Nat}
    (h : Effect s i t st d) :
    st = .formatError ↔ (i = .dec ∧ s.blen ≠ 16) ∨ (i = .deser ∧ s.blen ≠ 4096) := by
  cases h with
  | decOk h | decBad h | deserOk h | deserBad h => simp [← BitVec.toNat_inj, h]
  | @lineFails ax f m1 m2 v hne | @lineLeaves ax f m1 m2 v _ _ hne
  | @lineOk ax f m1 m2 v _ _ hne =>
    obtain ⟨x1, y1, x2, y2, hline, -⟩ := lineAlong_eq ax hne f v
    simp [hline]
  | _ => simp

/-- Settles O51: the two length checks, and the data of a failing command. -/
theorem formatErrorExactlyAsListed : Obligations.FormatErrorExactlyAsListed := by
  intro i s u r hexec hr
  obtain ⟨t, st, d, rfl, rfl, heff⟩ := answer_of_exec hexec hr
  have hstatus := rspStatus_eq_statusCode_iff st .formatError d
  refine ⟨hstatus.trans heff.formatError_iff, fun h3 => ?_⟩
  obtain rfl := hstatus.mp h3
  obtain ⟨-, rfl⟩ | ⟨hst, -⟩ := heff.error_cases nofun
  · exact rspData_responseWord_zero _
  · exact nomatch hst

/-! ### ValidationError (R124) -/

theorem Effect.validationError_iff {s t : State} {i : Instr} {st : Status} {d : Nat}
    (h : Effect s i t st d) :
    st = .validationError ↔
      ∃ x1 y1 x2 y2 v, i = .line x1 y1 x2 y2 v ∧ ¬Xor (x1 = x2) (y1 = y2) := by
  cases h with
  | lineInvalid h =>
    refine iff_of_true rfl ⟨_, _, _, _, _, rfl, ?_⟩
    rw [← axisAligned_iff, h]
    decide
  | @lineFails ax f m1 m2 v hne | @lineLeaves ax f m1 m2 v _ _ hne
  | @lineOk ax f m1 m2 v _ _ hne =>
    obtain ⟨x1, y1, x2, y2, hline, hxor⟩ := lineAlong_eq ax hne f v
    rw [hline]
    refine iff_of_false nofun ?_
    rintro ⟨_, _, _, _, _, ⟨⟩, hnot⟩
    exact hnot hxor
  | _ => simp

/-- Settles O52: the axis check, and the data and frame of a failing command. -/
theorem validationErrorExactlyAsListed : Obligations.ValidationErrorExactlyAsListed := by
  intro i s u r hexec hr
  obtain ⟨t, st, d, rfl, rfl, heff⟩ := answer_of_exec hexec hr
  have hstatus := rspStatus_eq_statusCode_iff st .validationError d
  refine ⟨hstatus.trans heff.validationError_iff, fun h4 => ?_⟩
  obtain rfl := hstatus.mp h4
  obtain ⟨rfl, rfl⟩ | ⟨hst, -⟩ := heff.error_cases nofun
  · exact ⟨rspData_responseWord_zero _, respond_arch t _ _⟩
  · exact nomatch hst

/-! ### IllegalCommand (R125) -/

theorem Effect.ne_illegalCommand {s t : State} {i : Instr} {st : Status} {d : Nat}
    (h : Effect s i t st d) : st ≠ .illegalCommand := by
  cases h <;> nofun

theorem WordEffect.illegalCommand_iff {s t : State} {w : CmdWord} {st : Status} {d : Nat}
    (h : WordEffect s w t st d) : st = .illegalCommand ↔ ¬∃ i, decode w = .ok i := by
  cases h with
  | illegal h => exact iff_of_true rfl h
  | command hdec heff => exact iff_of_false heff.ne_illegalCommand (not_not.mpr ⟨_, hdec⟩)

/-- Settles O53: a word answers IllegalCommand when it does not decode, and it decodes when it
satisfies a row of the match and mask table. -/
theorem illegalCommandExactlyAsListed : Obligations.IllegalCommandExactlyAsListed := by
  intro w s u r hword hr
  obtain ⟨t, st, d, rfl, rfl, heff⟩ := answer_of_execWord hword hr
  obtain ⟨hlegal, -⟩ := legalWordMatchesOneRow
  have hstatus := rspStatus_eq_statusCode_iff st .illegalCommand d
  refine ⟨(hstatus.trans heff.illegalCommand_iff).trans (hlegal w).not, fun h5 => ?_⟩
  obtain rfl := hstatus.mp h5
  cases heff with
  | illegal _ => exact rspData_responseWord_zero _
  | command _ heff => exact absurd rfl heff.ne_illegalCommand

end Sys2Proof.Machine
end

section
/-! PROOFS. The family 70_reset_and_hazards.md: an edge with `rst` at 1 and the edges after it (R140,
R142, R143, R151), an edge at which nothing is asked of the block (R149), and the commands right after
reset (R144, R24). -/

namespace Sys2Proof.Machine

open Sys2Proof Sys2Proof.Statements

/-! ### Reset (R140, R142, R143, R151) -/

/-- Settles O7: the edge makes a hard reset. -/
theorem resetEdgeGivesTheResetState : Obligations.ResetEdgeGivesTheResetState := by
  intro s hrst
  exact ⟨_, step_reset hrst, hardReset_arch s.popPins, hardReset_rsp s.popPins, rfl⟩

/-- Settles O8: a hard reset withdraws the response and keeps what the host has and will do. -/
theorem resetEdgeDeliversNothing : Obligations.ResetEdgeDeliversNothing := by
  intro s hrst
  exact ⟨_, step_reset hrst, hardReset_rsp s.popPins, hardReset_delivered s.popPins,
    hardReset_inputs s.popPins⟩

/-- Settles O9: the number of edges is the delay drawn at the reset edge, which passes whatever the
host's pins do but for `rst`. -/
theorem readyAfterResetInFiniteTime : Obligations.ReadyAfterResetInFiniteTime := by
  intro s p hrst
  refine ⟨Config.delay s.draws, fun pins more hlen hpins => ?_⟩
  have hreset := step_reset (s := { s with inputs := p :: (pins ++ more) }) hrst
  rw [edges_succ hreset, ← hlen, edges_wait hpins hlen.symm rfl]
  exact ⟨_, rfl, rfl, rfl, rfl, rfl⟩

/-! ### An edge with no command (R149) -/

/-- Settles O13: such an edge lets a delay pass, or the block is ready and nothing is offered. -/
theorem blockNeverActsOnItsOwn : Obligations.BlockNeverActsOnItsOwn := by
  intro s hrst hrsp hnone
  by_cases hwait : s.wait = 0
  · have hready : s.cmdReady = true := (cmdReady_iff s).mpr ⟨hrsp, hwait⟩
    have hvalid : s.pins.cmdValid = false := by simpa [hready] using hnone
    exact ⟨_, step_idle hrst hwait hrsp hvalid, popPins_arch s, hrsp, popPins_delivered s⟩
  · exact ⟨_, step_delay hrst hwait, tick_arch s.popPins, hrsp, tick_delivered s.popPins⟩

/-! ### The commands right after reset (R144, R24) -/

/-- The encoding of a tile with every cell 0 is sixteen bytes 00. -/
theorem encodeTile_replicate_zero :
    encodeTile (Vector.replicate 8 (Vector.replicate 8 0)) = Vector.replicate 16 0 := by
  decide

theorem encodeTile_reset (n : BitVec 8) :
    encodeTile (tileAt State.reset.ts n) = Vector.replicate 16 0 := by
  rw [State.reset, tileAt_replicate, encodeTile_replicate_zero]

/-- The sixteen bytes ENC writes right after reset. -/
theorem read_enc_reset {t : State} (hexec : exec .enc State.reset = .next t) {a : Nat}
    (ha : a < 16) : t.buf.read a = 0 := by
  obtain ⟨htile, -⟩ := enc_leaves Memory.wf_nil hexec
  rw [read_of_readTile (htile.trans (encodeTile_reset _)) ha, Vector.getElem_replicate]

/-- The 4096 bytes SER writes right after reset. -/
theorem read_ser_reset {t : State} (hexec : exec .ser State.reset = .next t) {a : Nat}
    (ha : a < 4096) : t.buf.read a = 0 := by
  obtain ⟨htiles, -⟩ := ser_leaves Memory.wf_nil hexec
  obtain ⟨n, i, hi, rfl⟩ := exists_tile_byte ha
  rw [← readTile_getElem _ _ _ hi, htiles, encodeTile_reset, Vector.getElem_replicate]

/-- GET answers 0 for every cell right after reset. -/
theorem get_reset (x y : Fin 8) : ∃ t, Answers (.get x.val y.val) State.reset 0 0 t := by
  obtain ⟨hget, -⟩ := getReadsOneCell
  obtain ⟨hcells, -⟩ := resetStateHoldsTheResetValues
  obtain ⟨t, hanswers, -⟩ := hget State.reset x y
  rw [hcells] at hanswers
  exact ⟨t, hanswers⟩

/-- Settles O55: each command by its own rule, at a state with every cell 0, `CUR` 0 and `BLEN` 0. -/
theorem commandsRightAfterReset : Obligations.CommandsRightAfterReset := by
  have henc := execEnc_eq State.reset
  have hser := execSer_eq State.reset
  obtain ⟨-, hdec, -⟩ := decReplacesTheTileOrNothing
  obtain ⟨-, hdeser, -⟩ := deserReplacesTheStoreOrNothing
  obtain ⟨hrdcur, -⟩ := rdcurReadsTheCurrentTile
  obtain ⟨hrdlen, -⟩ := rdlenReadsTheLength
  obtain ⟨t, hcur, -⟩ := hrdcur State.reset
  obtain ⟨u, hlen, -⟩ := hrdlen State.reset
  exact ⟨get_reset, ⟨_, answers_of_exec henc, fun _ => read_enc_reset henc⟩,
    ⟨_, answers_of_exec hser, fun _ => read_ser_reset hser⟩, hdec State.reset (by decide),
    hdeser State.reset (by decide), ⟨t, hcur⟩, ⟨u, hlen⟩⟩

end Sys2Proof.Machine
end
